-- ==== Sys2Proof/Word.lean ====
section
/-! DEFINITION. The word types of the machine (spec/00_scope.md R5, R6): bytes, 16-bit words, 12-bit
immediate addresses and register numbers. -/

namespace Sys2Proof

/-- An 8-bit value: a general register, a byte of memory, a timer (R14, R21, R31). -/
abbrev Byte := BitVec 8

/-- A 16-bit value: `pc`, `I`, a call-stack slot, an opcode word (R16, R20, R25, R57). -/
abbrev Word := BitVec 16

/-- The 12-bit immediate address field `nnn` (R58). -/
abbrev Addr := BitVec 12

/-- A general register's number, 0 to 15 (R14, R59); 15 is VF. -/
abbrev Reg := Fin 16

end Sys2Proof
end

