-- ==== Sys2Proof/Syntax.lean ====
section
/-! DEFINITION. The instructions: one constructor for each row of spec/opcode_table.json, with the
operands of its format (spec/30_encoding.md R58, R59). -/

namespace Sys2Proof

/-- The 34 instructions of the closed dispatch table (R60 to R65). `x`, `y` are register numbers,
`nn` an immediate byte, `nnn` an immediate address, `n` a count of sprite rows. -/
inductive Instr where
  /-- `00E0 CLS` (R72). -/
  | cls
  /-- `00EE RET` (R73). -/
  | ret
  /-- `1nnn JP nnn` (R74). -/
  | jp (nnn : Addr)
  /-- `2nnn CALL nnn` (R75). -/
  | call (nnn : Addr)
  /-- `3xnn SE Vx,nn` (R77). -/
  | seImm (x : Reg) (nn : Byte)
  /-- `4xnn SNE Vx,nn` (R78). -/
  | sneImm (x : Reg) (nn : Byte)
  /-- `5xy0 SE Vx,Vy` (R79). -/
  | seReg (x y : Reg)
  /-- `6xnn LD Vx,nn` (R82). -/
  | ldImm (x : Reg) (nn : Byte)
  /-- `7xnn ADD Vx,nn` (R83). -/
  | addImm (x : Reg) (nn : Byte)
  /-- `8xy0 LD Vx,Vy` (R84). -/
  | ldReg (x y : Reg)
  /-- `8xy1 OR Vx,Vy` (R85). -/
  | orReg (x y : Reg)
  /-- `8xy2 AND Vx,Vy` (R86). -/
  | andReg (x y : Reg)
  /-- `8xy3 XOR Vx,Vy` (R87). -/
  | xorReg (x y : Reg)
  /-- `8xy4 ADD Vx,Vy` (R88). -/
  | addReg (x y : Reg)
  /-- `8xy5 SUB Vx,Vy` (R89). -/
  | subReg (x y : Reg)
  /-- `8xy6 SHR Vx{,Vy}` (R90). -/
  | shr (x y : Reg)
  /-- `8xy7 SUBN Vx,Vy` (R91). -/
  | subnReg (x y : Reg)
  /-- `8xyE SHL Vx{,Vy}` (R92). -/
  | shl (x y : Reg)
  /-- `9xy0 SNE Vx,Vy` (R80). -/
  | sneReg (x y : Reg)
  /-- `Annn LD I,nnn` (R103). -/
  | ldI (nnn : Addr)
  /-- `Bnnn JP V0,nnn` (R76). -/
  | jpV0 (nnn : Addr)
  /-- `Cxnn RND Vx,nn` (R93). -/
  | rnd (x : Reg) (nn : Byte)
  /-- `Dxyn DRW Vx,Vy,n` (R94); the encoding admits `n` from 0 to 15 (see `Instr.wellFormed`). -/
  | drw (x y : Reg) (n : Nat)
  /-- `Ex9E SKP Vx` (R96). -/
  | skp (x : Reg)
  /-- `ExA1 SKNP Vx` (R97). -/
  | sknp (x : Reg)
  /-- `Fx07 LD Vx,DT` (R100). -/
  | ldVxDt (x : Reg)
  /-- `Fx0A LD Vx,K` (R98). -/
  | ldVxK (x : Reg)
  /-- `Fx15 LD DT,Vx` (R101). -/
  | ldDtVx (x : Reg)
  /-- `Fx18 LD ST,Vx` (R102). -/
  | ldStVx (x : Reg)
  /-- `Fx1E ADD I,Vx` (R104). -/
  | addI (x : Reg)
  /-- `Fx29 LD F,Vx` (R105). -/
  | ldF (x : Reg)
  /-- `Fx33 LD B,Vx` (R106). -/
  | ldB (x : Reg)
  /-- `Fx55 LD [I],Vx` (R107). -/
  | storeRegs (x : Reg)
  /-- `Fx65 LD Vx,[I]` (R108). -/
  | loadRegs (x : Reg)
  deriving DecidableEq, Repr

end Sys2Proof
end

