-- ==== Sys2Proof/Config.lean ====
section
/-! DEFINITION. What an implementation fixes (the sizes and named parameters of spec/00_scope.md R4) and
the one free value of the spec (the random byte of spec/43_random.md R93). The decided values of the
named parameters stand in Machine/Operands.lean. -/

namespace Sys2Proof

/-- The two readings of `SHR`/`SHL` the spec names: which register is shifted (R4 `SHIFT_SRC`, D8). -/
inductive ShiftSrc where
  /-- Shift `V[x]` in place and ignore `y`: the decided value. -/
  | vx
  /-- Shift `V[y]` into `V[x]`: the alternative. -/
  | vy
  deriving DecidableEq, Repr

/-- The named parameters of R4 a model may carry as configuration. -/
structure Conventions where
  /-- `SHIFT_SRC`: which register `8xy6` and `8xyE` shift. -/
  shiftSrc : ShiftSrc
  /-- `LOADSTORE_INC_I`: whether `Fx55` and `Fx65` advance `I`. -/
  loadStoreIncI : Bool
  deriving DecidableEq, Repr

namespace Config

/-- `MEM_SIZE`: bytes of memory, addresses 0 to 4095 (R4, R31). -/
def memSize : Nat := 4096

/-- `START_ADDR`: the program load address and the reset value of `pc` (R4, R36, R134). -/
def startAddr : Word := 0x200

/-- `STACK_CAP`: entries of the call stack (R4, R26). -/
def stackCap : Nat := 16

/-- The longest program `load` accepts: `0x200 + len - 1 <= 0xFFF` (R135). -/
def maxProgram : Nat := 3584

/-- `draw_byte()` of R93, the free input of one execution of `Cxnn`, by how many were drawn before it.
It has no body, so nothing can be proved of its values.
DESIGN CHOICE (log 3): the draws of one machine are numbered by the counter `State.draws`. -/
opaque drawByte : Nat → Byte

end Config

end Sys2Proof
end

