-- ==== Sys2Proof/Machine/Memory.lean ====
section
/-! DEFINITION. The byte array `mem` (spec/10_state.md R31, R32; spec/20_memory.md R39): a list of
(address, byte) pairs in one canonical form, its one-byte read and write, and its reset contents. -/

namespace Sys2Proof.Machine

/-- The byte array, as the list of the addresses whose byte differs from its reset byte, ascending. -/
abbrev Memory := List Host.Cell

/-- Glyphs 0 to 3 of the font table of R32, top row first. -/
def font0 : List Byte :=
  [0xF0, 0x90, 0x90, 0x90, 0xF0, 0x20, 0x60, 0x20, 0x20, 0x70,
   0xF0, 0x10, 0xF0, 0x80, 0xF0, 0xF0, 0x10, 0xF0, 0x10, 0xF0]

/-- Glyphs 4 to 7 of the font table of R32. -/
def font4 : List Byte :=
  [0x90, 0x90, 0xF0, 0x10, 0x10, 0xF0, 0x80, 0xF0, 0x10, 0xF0,
   0xF0, 0x80, 0xF0, 0x90, 0xF0, 0xF0, 0x10, 0x20, 0x40, 0x40]

/-- Glyphs 8 to B of the font table of R32. -/
def font8 : List Byte :=
  [0xF0, 0x90, 0xF0, 0x90, 0xF0, 0xF0, 0x90, 0xF0, 0x10, 0xF0,
   0xF0, 0x90, 0xF0, 0x90, 0x90, 0xE0, 0x90, 0xE0, 0x90, 0xE0]

/-- Glyphs C to F of the font table of R32. -/
def fontC : List Byte :=
  [0xF0, 0x80, 0x80, 0x80, 0xF0, 0xE0, 0x90, 0x90, 0x90, 0xE0,
   0xF0, 0x80, 0xF0, 0x80, 0xF0, 0xF0, 0x80, 0xF0, 0x80, 0x80]

/-- `FONT`, the 80 bytes of the font region, 5 a glyph (R4, R32).
PRESUMED (log 6): the customary font, general knowledge of the spec (D3, G2). -/
def font : List Byte := font0 ++ font4 ++ font8 ++ fontC

/-- The byte an address holds after reset, which is what an unlisted address reads as (R31, R36): the font
at 0 to 79, 0 above. -/
def Memory.unlisted (a : Nat) : Byte := font.getD a 0

/-- The byte at an address: reading is plain and changes nothing (R46). Every caller has checked the range. -/
def Memory.read : Memory → Nat → Byte
  | [], a => Memory.unlisted a
  | (k, v) :: rest, a => if k = a then v else Memory.read rest a

/-- Take an address off the list, so that it reads as its reset byte. -/
def Memory.erase : Memory → Nat → Memory
  | [], _ => []
  | (k, v) :: rest, a => if k = a then Memory.erase rest a else (k, v) :: Memory.erase rest a

/-- List a byte for an address that is not listed, keeping the addresses ascending. -/
def Memory.place : Memory → Nat → Byte → Memory
  | [], a, b => [(a, b)]
  | (k, v) :: rest, a, b => if a < k then (a, b) :: (k, v) :: rest else (k, v) :: Memory.place rest a b

/-- `mem[a] <- b` for an address of the array: its old entry goes, and a byte that is not the one the address
reads as unlisted is listed. Above 4095 there is no byte to write and nothing happens (log 16): no
instruction and no host operation gets there, each checks its range first (R44, R135). -/
def Memory.write (m : Memory) (a : Nat) (b : Byte) : Memory :=
  if a < Config.memSize then
    if b = Memory.unlisted a then m.erase a else (m.erase a).place a b
  else m

/-- Write bytes at ascending addresses from `a` (R42). -/
def Memory.writeBytes (m : Memory) (a : Nat) : List Byte → Memory
  | [] => m
  | b :: bs => Memory.writeBytes (m.write a b) (a + 1) bs

/-- The canonical form from address `lo` up: addresses in the array, strictly rising, no entry equal to
its reset byte. -/
def Memory.wfFrom : Nat → Memory → Bool
  | _, [] => true
  | lo, (k, v) :: rest =>
    decide (lo ≤ k) && decide (k < Config.memSize) && decide (v ≠ Memory.unlisted k) &&
      Memory.wfFrom (k + 1) rest

/-- The memory is in its canonical form, so that equal memories are equal lists. -/
def Memory.wf (m : Memory) : Bool := Memory.wfFrom 0 m

end Sys2Proof.Machine
end

