-- ==== Sys2Proof/Machine/State.lean ====
section
/-! DEFINITION. The whole state of one machine instance (spec/10_state.md R13), the reasons a step can
stop, and the state after reset (R36). -/

namespace Sys2Proof.Machine

/-- What an out-of-range access was to (spec/60_exceptions.md R109 (d), R113). -/
inductive RangeKind where
  /-- An address of `mem` above 4095. -/
  | memory
  /-- A key number above 15. -/
  | keyIndex
  /-- A glyph digit above 15. -/
  | glyphIndex
  deriving DecidableEq, Repr

/-- The four fatal errors and what each records (R109). They are the machine's exceptions: the instruction
that raises one takes it, the latch `HALT` holds it, and the tick still answers a next state (R114, log 1). -/
inductive FatalError where
  /-- (a) `CALL` with `SP = 16` (R110). -/
  | stackOverflow
  /-- (b) `RET` with `SP = 0` (R111). -/
  | stackUnderflow
  /-- (c) A fetched word that is no instruction (R112). -/
  | unknownOpcode (w : Word)
  /-- (d) The highest address the access needed, or the offending `V[x]` (R113). -/
  | outOfRange (kind : RangeKind) (value : Nat)
  deriving DecidableEq, Repr

/-- The 2048 pixels; `FB[px, py]` is element `py*64 + px` (R30). -/
abbrev Framebuffer := Vector Bool 2048

/-- The state of R13, one field for each of its components, and the model's own counter `draws`. -/
structure State where
  /-- `mem`: the 4096 bytes (R31). -/
  mem : Memory
  /-- `V`: the sixteen 8-bit registers, VF last (R14, R15). -/
  v : Vector Byte 16
  /-- `I`: the index register (R20). -/
  index : Word
  /-- `pc`: between ticks, the address of the next instruction to fetch (R16). -/
  pc : Word
  /-- `S`: the sixteen call-stack slots (R25). -/
  stack : Vector Word 16
  /-- `SP`: how many return addresses are on the call stack, 0 to 16 (R24, R26). -/
  sp : Fin 17
  /-- `FB`: the framebuffer (R30). -/
  fb : Framebuffer
  /-- `DT`: the delay timer (R21). -/
  dt : Byte
  /-- `ST`: the sound timer (R22). -/
  st : Byte
  /-- `K`: the key latch, `true` for a key that is pressed (R29). -/
  keys : Vector Bool 16
  /-- `WAIT`: the target register of a pending `Fx0A` (R33). -/
  wait : Option Reg
  /-- `HALT`: the fatal error that halted the engine (R34). -/
  halt : Option FatalError
  /-- The MODEL's own field, no state of the spec (log 3): how many random bytes have been drawn (R93). -/
  draws : Nat
  deriving DecidableEq, Repr

/-- Reasons a step ends the run with a fault: NONE. The spec's four fatal errors are entries into Halted,
which it describes as states (R114, R115, R35), so the model takes them as next states (log 1). Nobody
raises a fault; that is safe, since a halted machine shows its error in `HALT` at every later step. -/
inductive Fault where
  deriving DecidableEq, Repr

/-- Reasons for no meaning. Neither of the last two is raised by an instruction. -/
inductive Refusal where
  /-- Raised by `exec` for an instruction with no meaning yet; safe. No arm of this model does. -/
  | notModelled (mnemonic : String)
  /-- Raised by the host operation `setKey` for a key number above 15, for which the machine has no move
  (R121, D21, U16); safe. -/
  | noSuchKey (k : Nat)
  /-- Raised by the host operation `load` for a program over 3584 bytes, for which the machine has no move
  (R135, D21, U16); safe. -/
  | programTooLong (length : Nat)
  deriving DecidableEq, Repr

/-- The state after `reset()` and at power-on (R36, R131, R132): memory as reset leaves it (nothing
listed), `pc` at the start address, every other component zero, false or none. -/
def State.reset : State where
  mem := []
  v := Vector.replicate 16 0
  index := 0
  pc := Config.startAddr
  stack := Vector.replicate 16 0
  sp := 0
  fb := Vector.replicate 2048 false
  dt := 0
  st := 0
  keys := Vector.replicate 16 false
  wait := none
  halt := none
  draws := 0

end Sys2Proof.Machine
end

