-- ==== Sys2Proof/Machine/Ops.lean ====
section
/-! DEFINITION. The named operations over the state that the meanings share: registers, `pc`, the call
stack, memory, pixels, keys; taking a fatal error (spec/60_exceptions.md R114); and the ticks that run
no instruction (R115; spec/45_keys.md R99). -/

namespace Sys2Proof.Machine

/-- What a step, and the meaning of an instruction, answers. -/
abbrev Result := Host.Outcome State Fault Refusal

/-! ### Registers -/

/-- VF, the register that is also the flag output (R15). -/
def vf : Reg := 15

/-- `V[r]` (R6, R14). -/
def State.reg (s : State) (r : Reg) : Byte := s.v[r.val]

/-- `V[r] <- b` (R6, R14). -/
def State.setReg (s : State) (r : Reg) (b : Byte) : State := { s with v := s.v.set r.val b }

/-- `I <- a` (R20). -/
def State.setIndex (s : State) (a : Word) : State := { s with index := a }

/-- `DT <- b` (R21). -/
def State.setDt (s : State) (b : Byte) : State := { s with dt := b }

/-- `ST <- b` (R22). -/
def State.setSt (s : State) (b : Byte) : State := { s with st := b }

/-! ### Program counter -/

/-- `pc <- pc + 2`, modulo 65536: the fetch advance, and once more for a skip (R16, R17, R18). -/
def State.advance (s : State) : State := { s with pc := s.pc + 2 }

/-- A skip (R77): `pc` advanced by a further 2 when the condition holds, and nothing else. -/
def State.skipIf (s : State) (c : Bool) : State := if c then s.advance else s

/-- `pc <- target` (R6). -/
def State.jump (s : State) (target : Word) : State := { s with pc := target }

/-! ### Call stack -/

/-- `S[k]` (R6, R25). -/
def State.slot (s : State) (k : Fin 16) : Word := s.stack[k.val]

/-- The two writes of `push(v)` (R27), for `SP < 16`: the slot at `SP`, then `SP + 1`. -/
def State.push (s : State) (v : Word) : State :=
  { s with
    stack := s.stack.set (Fin.ofNat 16 s.sp.val).val v
    sp := Fin.ofNat 17 (s.sp.val + 1) }

/-- The value `pop()` returns (R28), for `SP > 0`: the slot below `SP`. -/
def State.top (s : State) : Word := s.slot (Fin.ofNat 16 (s.sp.val - 1))

/-- The write of `pop()` (R28), for `SP > 0`: `SP - 1`; the slot keeps its value. -/
def State.drop (s : State) : State := { s with sp := Fin.ofNat 17 (s.sp.val - 1) }

/-- `push` raises `StackOverflow` when the stack is full (R27, R110). -/
def State.pushCheck (s : State) : Option FatalError :=
  if s.sp.val = Config.stackCap then some .stackOverflow else none

/-- `pop` raises `StackUnderflow` when the stack is empty (R28, R111). -/
def State.popCheck (s : State) : Option FatalError :=
  if s.sp.val = 0 then some .stackUnderflow else none

/-! ### Memory -/

/-- `mem[a]`, one byte (R44), for an address whose range has been checked. -/
def State.byte (s : State) (a : Nat) : Byte := s.mem.read a

/-- Writes of one byte each at ascending addresses from `a` (R42), after the range check (R44). -/
def State.storeBytes (s : State) (a : Nat) (bs : List Byte) : State :=
  { s with mem := s.mem.writeBytes a bs }

/-- The range check of R44: `OutOfRange(Memory, last)` when the highest address needed is above 4095. -/
def memoryCheck (last : Nat) : Option FatalError :=
  if last > 4095 then some (.outOfRange .memory last) else none

/-! ### Framebuffer -/

/-- The index of `FB[px, py]` in the flat array (R30). -/
def pixelIndex (px : Fin 64) (py : Fin 32) : Fin 2048 := ⟨py.val * 64 + px.val, by omega⟩

/-- `FB[px, py]` of a framebuffer (R6, R30). -/
def pixelOf (fb : Framebuffer) (px : Fin 64) (py : Fin 32) : Bool := fb[(pixelIndex px py).val]

/-- `FB[px, py]` (R6, R30). -/
def State.pixel (s : State) (px : Fin 64) (py : Fin 32) : Bool := pixelOf s.fb px py

/-- All pixels false (R72). -/
def clearFramebuffer : Framebuffer := Vector.replicate 2048 false

/-- Replace the framebuffer. -/
def State.setFb (s : State) (fb : Framebuffer) : State := { s with fb := fb }

/-! ### Keys and latches -/

/-- `K[k]` (R6, R29). -/
def State.key (s : State) (k : Fin 16) : Bool := s.keys[k.val]

/-- The least `k` with `K[k]`, none when no key is pressed (R98, D13). -/
def State.pressed (s : State) : Option (Fin 16) := (List.finRange 16).find? s.key

/-- `WAIT <- w` (R33). -/
def State.setWait (s : State) (w : Option Reg) : State := { s with wait := w }

/-- One random byte has been drawn (R93; the model's counter, log 3). -/
def State.drawn (s : State) : State := { s with draws := s.draws + 1 }

/-! ### Taking a fatal error -/

/-- `HALT <- some e`, the one write of a raise (R114). -/
def State.halted (s : State) (e : FatalError) : State := { s with halt := some e }

/-- `raise e` (R114): from the state before the tick, so that every write of the tick is discarded (the fetch
advance of `pc` included), `HALT` is set. The tick's `Err(e)` is read off `HALT` (`tickReturns`, log 1). -/
def raise (e : FatalError) (s : State) : Result := .next (s.halted e)

/-- End an instruction that checks before it writes (R44, R117): from `before`, the state before the tick,
raise what the check found; otherwise the instruction's effect is `done`. -/
def checked (check : Option FatalError) (before done : State) : Result :=
  match check with
  | some e => raise e before
  | none => .next done

/-! ### Engine conditions, and the ticks that run no instruction -/

/-- The three conditions of the engine (R35). -/
inductive Engine where
  | halted (e : FatalError)
  | blocked (x : Reg)
  | ready
  deriving DecidableEq, Repr

/-- The condition read off the latches: Halted whatever `WAIT` is, else Blocked, else Ready (R35). -/
def State.engine (s : State) : Engine :=
  match s.halt, s.wait with
  | some e, _ => .halted e
  | none, some x => .blocked x
  | none, none => .ready

/-- The value a tick returns. -/
inductive TickResult where
  | ok
  | err (e : FatalError)
  deriving DecidableEq, Repr

/-- The value of the tick that left this state: `Err(e)` exactly when `HALT = some e`. A tick that raises sets
`HALT` (R114), a Halted tick keeps it (R115), every other tick leaves it `none` and returns `Ok` (R71). -/
def tickReturns (after : State) : TickResult :=
  match after.halt with
  | some e => .err e
  | none => .ok

/-- The Halted tick (R115): nothing changes. -/
def haltedTick (s : State) : Result := .next s

/-- The byte that holds a key's number (R98, R99). -/
def keyByte (k : Fin 16) : Byte := BitVec.ofNat 8 k.val

/-- The Blocked tick (R99), `x` the register latched in `WAIT`: it fetches nothing; when a key is pressed
its number goes to `V[x]`, `pc` passes the `Fx0A` and the engine is Ready; otherwise nothing changes. -/
def blockedTick (x : Reg) (s : State) : Result :=
  match s.pressed with
  | some k => .next ((s.advance.setReg x (keyByte k)).setWait none)
  | none => .next s

/-- The two bytes at `pc` as an opcode word, big-endian (R41). -/
def State.opcode (s : State) : Word := wordOfBytes (s.byte s.pc.toNat) (s.byte (s.pc.toNat + 1))

/-- `MemRead(pc, 2)` (R71 step 3, R41, R44): the opcode word at `pc`, or `OutOfRange(Memory, pc+1)`. -/
def fetch (s : State) : Except FatalError Word :=
  match memoryCheck (s.pc.toNat + 1) with
  | some e => .error e
  | none => .ok s.opcode

end Sys2Proof.Machine
end

