-- ==== Sys2Proof/Machine/Flags.lean ====
section
/-! DEFINITION. Every flag computation of the spec: what the six flag-producing instructions write to VF
(spec/10_state.md R15, R19; spec/42_arithmetic.md R81), and the order of the two writes. -/

namespace Sys2Proof.Machine

/-- A flag as VF holds it: 1 or 0 (R19). -/
def flagByte (f : Bool) : Byte := if f then 1 else 0

/-- Addition carry: the sum exceeds 255 (R81, R88). -/
def carry (a b : Byte) : Bool := decide (a.toNat + b.toNat > 255)

/-- Subtraction flag of `a - b`: set when no borrow occurred, minuend at least subtrahend (R81, R89, R91). -/
def notBorrow (a b : Byte) : Bool := decide (a.toNat ≥ b.toNat)

/-- The bit a right shift moves out (R90). -/
def bitOutRight (b : Byte) : Bool := b.getLsbD 0

/-- The bit a left shift moves out (R92). -/
def bitOutLeft (b : Byte) : Bool := b.getLsbD 7

/-- `VF <- flag` (R15). -/
def State.setFlag (s : State) (f : Bool) : State := s.setReg vf (flagByte f)

/-- The order of R15: the result to `V[x]`, then the flag to VF, so with `x = 15` VF holds the flag. -/
def State.resultThenFlag (s : State) (x : Reg) (r : Byte) (f : Bool) : State := (s.setReg x r).setFlag f

end Sys2Proof.Machine
end

