-- ==== Sys2Proof/Machine/Operands.lean ====
section
/-! DEFINITION. Every operand form of the spec: the base-plus-offset addressing of spec/46 R106, the shift
operand of spec/42 R90, key and glyph numbers, and the register block of spec/46 R107, R108; with the
decided values of the named parameters (spec/00_scope.md R4). -/

namespace Sys2Proof.Machine

/-- The decided values of R4: `SHIFT_SRC = VX`, `LOADSTORE_INC_I = false`.
DESIGN CHOICE (logs 4 and 5): the spec's own decisions D8 and D9. -/
def conventions : Conventions where
  shiftSrc := .vx
  loadStoreIncI := false

/-- A 12-bit immediate address widened with zeros (R59). -/
def wideAddr (nnn : Addr) : Word := nnn.setWidth 16

/-- A byte widened with zeros (R6). -/
def wideByte (b : Byte) : Word := b.setWidth 16

/-- The one effective-address computation: `I` plus a constant offset, on naturals (R106, R44). -/
def State.address (s : State) (offset : Nat) : Nat := s.index.toNat + offset

/-- The byte that `SHR` and `SHL` shift (R90, R92). -/
def State.shiftOperand (s : State) (src : ShiftSrc) (x y : Reg) : Byte :=
  match src with
  | .vx => s.reg x
  | .vy => s.reg y

/-- A key number above 15 is `OutOfRange(KeyIndex, V[x])` (R96, R97, R113). -/
def keyCheck (b : Byte) : Option FatalError :=
  if b.toNat > 15 then some (.outOfRange .keyIndex b.toNat) else none

/-- `K[b]` for a key number in range (R96, R97). -/
def State.keyAt (s : State) (b : Byte) : Bool := s.key (Fin.ofNat 16 b.toNat)

/-- A glyph digit above 15 is `OutOfRange(GlyphIndex, V[x])` (R105, R113). -/
def glyphCheck (b : Byte) : Option FatalError :=
  if b.toNat > 15 then some (.outOfRange .glyphIndex b.toNat) else none

/-- The address of a digit's glyph: `FONT_BASE + GLYPH_BYTES * d` (R105). -/
def glyphAddress (b : Byte) : Word := BitVec.ofNat 16 (5 * b.toNat)

/-- `V[0]` up to and including `V[x]`, the block `Fx55` stores (R107). -/
def State.regBlock (s : State) (x : Reg) : List Byte := s.v.toList.take (x.val + 1)

/-- `V[i] <- MemRead(a + i, 1)` for `i` from 0 below `k` (R108). -/
def loadBlock (m : Memory) (a : Nat) : Nat → Vector Byte 16 → Vector Byte 16
  | 0, v => v
  | k + 1, v => (loadBlock m a k v).setIfInBounds k (m.read (a + k))

/-- `V[0]` to `V[x]` loaded from `a` upward (R108). -/
def State.loadRegBlock (s : State) (x : Reg) (a : Nat) : State :=
  { s with v := loadBlock s.mem a (x.val + 1) s.v }

/-- `if LOADSTORE_INC_I then I <- (I + x + 1) mod 65536` (R107, R108). -/
def State.bumpIndex (s : State) (inc : Bool) (x : Reg) : State :=
  if inc then s.setIndex (BitVec.ofNat 16 (s.index.toNat + x.val + 1)) else s

end Sys2Proof.Machine
end

