-- ==== Sys2Proof/Machine/Arith.lean ====
section
/-! DEFINITION. Register loads, arithmetic, logic and shifts (spec/42_arithmetic.md R81 to R92). Operands
are read from the state before the tick, so old values are used throughout (R15, R81). -/

namespace Sys2Proof.Machine

/-- `LD Vx,nn` (R82). -/
def execLdImm (x : Reg) (nn : Byte) (s : State) : Result := .next (s.advance.setReg x nn)

/-- `ADD Vx,nn` (R83): modulo 256, VF not written. -/
def execAddImm (x : Reg) (nn : Byte) (s : State) : Result := .next (s.advance.setReg x (s.reg x + nn))

/-- `LD Vx,Vy` (R84). -/
def execLdReg (x y : Reg) (s : State) : Result := .next (s.advance.setReg x (s.reg y))

/-- `OR Vx,Vy` (R85): VF not written. -/
def execOrReg (x y : Reg) (s : State) : Result := .next (s.advance.setReg x (s.reg x ||| s.reg y))

/-- `AND Vx,Vy` (R86): VF not written. -/
def execAndReg (x y : Reg) (s : State) : Result := .next (s.advance.setReg x (s.reg x &&& s.reg y))

/-- `XOR Vx,Vy` (R87): VF not written. -/
def execXorReg (x y : Reg) (s : State) : Result := .next (s.advance.setReg x (s.reg x ^^^ s.reg y))

/-- `ADD Vx,Vy` (R88): the sum modulo 256, then VF the carry. -/
def execAddReg (x y : Reg) (s : State) : Result :=
  .next (s.advance.resultThenFlag x (s.reg x + s.reg y) (carry (s.reg x) (s.reg y)))

/-- `SUB Vx,Vy` (R89): `V[x] - V[y]` modulo 256, then VF set when no borrow occurred. -/
def execSubReg (x y : Reg) (s : State) : Result :=
  .next (s.advance.resultThenFlag x (s.reg x - s.reg y) (notBorrow (s.reg x) (s.reg y)))

/-- `SUBN Vx,Vy` (R91): `V[y] - V[x]` modulo 256, then VF set when no borrow occurred. -/
def execSubnReg (x y : Reg) (s : State) : Result :=
  .next (s.advance.resultThenFlag x (s.reg y - s.reg x) (notBorrow (s.reg y) (s.reg x)))

/-- R90 for either value of `SHIFT_SRC`: the operand shifted right by 1, then VF the bit shifted out. -/
def shiftRight (src : ShiftSrc) (x y : Reg) (s : State) : State :=
  s.advance.resultThenFlag x (s.shiftOperand src x y >>> 1) (bitOutRight (s.shiftOperand src x y))

/-- R92 for either value of `SHIFT_SRC`: the operand doubled modulo 256, then VF the bit shifted out. -/
def shiftLeft (src : ShiftSrc) (x y : Reg) (s : State) : State :=
  s.advance.resultThenFlag x (s.shiftOperand src x y <<< 1) (bitOutLeft (s.shiftOperand src x y))

/-- `SHR Vx{,Vy}` (R90) with the decided `SHIFT_SRC`. -/
def execShr (x y : Reg) (s : State) : Result := .next (shiftRight conventions.shiftSrc x y s)

/-- `SHL Vx{,Vy}` (R92) with the decided `SHIFT_SRC`. -/
def execShl (x y : Reg) (s : State) : Result := .next (shiftLeft conventions.shiftSrc x y s)

end Sys2Proof.Machine
end

