-- ==== Sys2Proof/Machine/Draw.lean ====
section
/-! DEFINITION. The sprite draw (spec/44_draw.md R94): the two loops of its pseudocode over a framebuffer
and a collision flag. -/

namespace Sys2Proof.Machine

/-- One pass of the inner loop of R94, for row `r` and column `c` of the sprite: a 1 bit flips the pixel it
lands on, wrapped modulo 64 and 32, and collides when that pixel was on. -/
def plotBit (x0 y0 : Nat) (b : Byte) (r : Nat) (acc : Framebuffer × Bool) (c : Nat) : Framebuffer × Bool :=
  if b.getLsbD (7 - c) then
    let px := Fin.ofNat 64 (x0 + c)
    let py := Fin.ofNat 32 (y0 + r)
    (acc.1.set (pixelIndex px py).val (!(pixelOf acc.1 px py)), acc.2 || pixelOf acc.1 px py)
  else acc

/-- The inner loop of R94: the eight bits of row `r`, bit 7 the leftmost (D14). -/
def plotRow (x0 y0 : Nat) (b : Byte) (r : Nat) (acc : Framebuffer × Bool) : Framebuffer × Bool :=
  (List.range 8).foldl (plotBit x0 y0 b r) acc

/-- The outer loop of R94: rows 0 to `n-1`, row `r` the byte `row r`. -/
def plotSprite (x0 y0 : Nat) (row : Nat → Byte) (n : Nat) (acc : Framebuffer × Bool) : Framebuffer × Bool :=
  (List.range n).foldl (fun a r => plotRow x0 y0 (row r) r a) acc

/-- The sprite's range check of R94: no byte is read when `n = 0`. -/
def State.spriteCheck (s : State) (n : Nat) : Option FatalError :=
  if n = 0 then none else memoryCheck (s.address (n - 1))

/-- The framebuffer and the collision flag after drawing `n` rows from `I` at column `V[x]`, row `V[y]`. -/
def State.drawing (s : State) (x y : Reg) (n : Nat) : Framebuffer × Bool :=
  plotSprite (s.reg x).toNat (s.reg y).toNat (fun r => s.byte (s.address r)) n (s.fb, false)

/-- `DRW Vx,Vy,n` (R94): the sprite XORed into the framebuffer, then VF the collision. -/
def execDrw (x y : Reg) (n : Nat) (s : State) : Result :=
  checked (s.spriteCheck n) s
    ((s.advance.setFb (s.drawing x y n).1).setFlag (s.drawing x y n).2)

end Sys2Proof.Machine
end

