-- ==== Sys2Proof/Machine/Flow.lean ====
section
/-! DEFINITION. Clear screen, return, jump, call, indexed jump (spec/40_flow.md R72 to R76). Each meaning
starts from the state before the tick; `s.advance` is that state after the fetch (R71 step 4). -/

namespace Sys2Proof.Machine

/-- `CLS` (R72): every pixel false. -/
def execCls (s : State) : Result := .next (s.advance.setFb clearFramebuffer)

/-- `RET` (R73): `pc <- pop()`. -/
def execRet (s : State) : Result := checked s.popCheck s (s.advance.drop.jump s.top)

/-- `JP nnn` (R74): `pc <- zext_16(nnn)`. -/
def execJp (nnn : Addr) (s : State) : Result := .next (s.advance.jump (wideAddr nnn))

/-- `CALL nnn` (R75): push the address after the `CALL`, then `pc <- zext_16(nnn)`. -/
def execCall (nnn : Addr) (s : State) : Result :=
  checked s.pushCheck s ((s.advance.push s.advance.pc).jump (wideAddr nnn))

/-- `JP V0,nnn` (R76): `pc <- zext_16(nnn) + zext_16(V[0])`, not reduced to 12 bits. -/
def execJpV0 (nnn : Addr) (s : State) : Result :=
  .next (s.advance.jump (wideAddr nnn + wideByte (s.reg 0)))

end Sys2Proof.Machine
end

