-- ==== Sys2Proof/Machine/Keys.lean ====
section
/-! DEFINITION. The key-sensitive instructions (spec/45_keys.md R96 to R98). The Blocked tick of R99 is
`blockedTick` in Machine/Ops.lean. -/

namespace Sys2Proof.Machine

/-- `SKP Vx` (R96): skip if key `V[x]` is pressed. -/
def execSkp (x : Reg) (s : State) : Result :=
  checked (keyCheck (s.reg x)) s (s.advance.skipIf (s.keyAt (s.reg x)))

/-- `SKNP Vx` (R97): skip if key `V[x]` is not pressed. -/
def execSknp (x : Reg) (s : State) : Result :=
  checked (keyCheck (s.reg x)) s (s.advance.skipIf (!(s.keyAt (s.reg x))))

/-- `LD Vx,K` (R98): with a key pressed, the least key's number to `V[x]`; with none, `WAIT <- some x` and `pc`
back at this instruction (the fetch's `+ 2` and the rule's `- 2` cancel). -/
def execLdVxK (x : Reg) (s : State) : Result :=
  match s.pressed with
  | some k => .next (s.advance.setReg x (keyByte k))
  | none => .next (s.setWait (some x))

end Sys2Proof.Machine
end

