-- ==== Sys2Proof/Machine/Random.lean ====
section
/-! DEFINITION. The random byte (spec/43_random.md R93). -/

namespace Sys2Proof.Machine

/-- `RND Vx,nn` (R93): `V[x] <- draw_byte() AND nn`, the draw a free value of this execution (log 3). -/
def execRnd (x : Reg) (nn : Byte) (s : State) : Result :=
  .next (s.advance.drawn.setReg x (Config.drawByte s.draws &&& nn))

end Sys2Proof.Machine
end

