-- ==== Sys2Proof/Machine/Skip.lean ====
section
/-! DEFINITION. The conditional skips on registers (spec/41_skip.md R77 to R80). -/

namespace Sys2Proof.Machine

/-- `SE Vx,nn` (R77): skip if `V[x] = nn`. -/
def execSeImm (x : Reg) (nn : Byte) (s : State) : Result :=
  .next (s.advance.skipIf (decide (s.reg x = nn)))

/-- `SNE Vx,nn` (R78): skip if `V[x] ≠ nn`. -/
def execSneImm (x : Reg) (nn : Byte) (s : State) : Result :=
  .next (s.advance.skipIf (decide (s.reg x ≠ nn)))

/-- `SE Vx,Vy` (R79): skip if `V[x] = V[y]`. -/
def execSeReg (x y : Reg) (s : State) : Result :=
  .next (s.advance.skipIf (decide (s.reg x = s.reg y)))

/-- `SNE Vx,Vy` (R80): skip if `V[x] ≠ V[y]`. -/
def execSneReg (x y : Reg) (s : State) : Result :=
  .next (s.advance.skipIf (decide (s.reg x ≠ s.reg y)))

end Sys2Proof.Machine
end

