-- ==== Sys2Proof/Machine/TimersIndex.lean ====
section
/-! DEFINITION. Timers and the index register (spec/46_timers_index_memory.md R100 to R105). -/

namespace Sys2Proof.Machine

/-- `LD Vx,DT` (R100). -/
def execLdVxDt (x : Reg) (s : State) : Result := .next (s.advance.setReg x s.dt)

/-- `LD DT,Vx` (R101). -/
def execLdDtVx (x : Reg) (s : State) : Result := .next (s.advance.setDt (s.reg x))

/-- `LD ST,Vx` (R102). -/
def execLdStVx (x : Reg) (s : State) : Result := .next (s.advance.setSt (s.reg x))

/-- `LD I,nnn` (R103): `I <- zext_16(nnn)`. -/
def execLdI (nnn : Addr) (s : State) : Result := .next (s.advance.setIndex (wideAddr nnn))

/-- `ADD I,Vx` (R104): modulo 65536, VF not written. -/
def execAddI (x : Reg) (s : State) : Result :=
  .next (s.advance.setIndex (s.index + wideByte (s.reg x)))

/-- `LD F,Vx` (R105): the address of the glyph of digit `V[x]`. -/
def execLdF (x : Reg) (s : State) : Result :=
  checked (glyphCheck (s.reg x)) s (s.advance.setIndex (glyphAddress (s.reg x)))

end Sys2Proof.Machine
end

