-- ==== Sys2Proof/Machine/Transfer.lean ====
section
/-! DEFINITION. BCD store, register store and register load (spec/46_timers_index_memory.md R106 to R108). -/

namespace Sys2Proof.Machine

/-- The decimal digits of a byte: hundreds, tens, ones, each a binary value 0 to 9 (R106, D15). -/
def bcdDigits (v : Byte) : List Byte :=
  [BitVec.ofNat 8 (v.toNat / 100), BitVec.ofNat 8 (v.toNat / 10 % 10), BitVec.ofNat 8 (v.toNat % 10)]

/-- `LD B,Vx` (R106): the digits of `V[x]` to `mem[I]`, `mem[I+1]`, `mem[I+2]`. -/
def execLdB (x : Reg) (s : State) : Result :=
  checked (memoryCheck (s.address 2)) s (s.advance.storeBytes (s.address 0) (bcdDigits (s.reg x)))

/-- R107 after its range check, for either value of `LOADSTORE_INC_I`. -/
def storeBlock (inc : Bool) (x : Reg) (s : State) : State :=
  (s.advance.storeBytes (s.address 0) (s.regBlock x)).bumpIndex inc x

/-- R108 after its range check, for either value of `LOADSTORE_INC_I`. -/
def loadBlockInto (inc : Bool) (x : Reg) (s : State) : State :=
  (s.advance.loadRegBlock x (s.address 0)).bumpIndex inc x

/-- `LD [I],Vx` (R107): `V[0]` to `V[x]` to `mem[I]` to `mem[I+x]`, with the decided `LOADSTORE_INC_I`. -/
def execStoreRegs (x : Reg) (s : State) : Result :=
  checked (memoryCheck (s.address x.val)) s (storeBlock conventions.loadStoreIncI x s)

/-- `LD Vx,[I]` (R108): `mem[I]` to `mem[I+x]` to `V[0]` to `V[x]`, with the decided `LOADSTORE_INC_I`. -/
def execLoadRegs (x : Reg) (s : State) : Result :=
  checked (memoryCheck (s.address x.val)) s (loadBlockInto conventions.loadStoreIncI x s)

end Sys2Proof.Machine
end

