-- ==== Sys2Proof/Machine/Step.lean ====
section
/-! DEFINITION. One step of the machine: the `tick` of spec/40_flow.md R71, in its order, with the
priorities of spec/60_exceptions.md R116. -/

namespace Sys2Proof.Machine

/-- The Ready tick (R71 steps 3 to 6): fetch, decode, execute; an error of the fetch and an unknown opcode
are raised from the state before the tick. -/
def readyTick (s : State) : Host.Outcome State Fault Refusal :=
  match fetch s with
  | .error e => raise e s
  | .ok w =>
    match decodeWord w with
    | none => raise (.unknownOpcode w) s
    | some i => exec i s

/-- `tick()` (R71): Halted, then Blocked, then Ready. -/
def step (s : State) : Host.Outcome State Fault Refusal :=
  match s.engine with
  | .halted _ => haltedTick s
  | .blocked x => blockedTick x s
  | .ready => readyTick s

/-- `s` with the instruction whose table bits are `w` where the next step fetches it: its two bytes at `pc`
and `pc + 1`, and what that fetch needs: the engine Ready, and `pc` in fetch range (log 18). -/
def State.withFetchWord (s : State) (nbits w : Nat) : State :=
  let pc := if s.pc.toNat + 1 > 4095 then Config.startAddr else s.pc
  { s with mem := s.mem.writeBytes pc.toNat (tableBytes nbits w), pc := pc, wait := none, halt := none }

end Sys2Proof.Machine
end

