-- ==== Sys2Proof/Machine/Events.lean ====
section
/-! DEFINITION. The host's operations between two ticks (spec/00_scope.md R9): `reset`, `load`
(spec/70_reset_and_hazards.md R131, R135), `decrement_timers`, `set_key` and the two reads
(spec/60_exceptions.md R120, R121, R124, R125). Each acts in every engine state (R115). -/

namespace Sys2Proof.Machine

/-- `reset()` (R131): every component of R13 at its reset value. The model's counter of draws is kept, so that
draws after a reset are fresh ones and not those of the first run again (log 3). -/
def hostReset (s : State) : State := { State.reset with draws := s.draws }

/-- One timer's decrement, floored at 0 (R120). -/
def countDown (t : Byte) : Byte := if t.toNat > 0 then t - 1 else t

/-- `decrement_timers()` (R120): both timers, independently, nothing else. -/
def decrementTimers (s : State) : State := (s.setDt (countDown s.dt)).setSt (countDown s.st)

/-- `K[k] <- pressed` for a key number in range. -/
def State.setKeyBit (s : State) (k : Fin 16) (pressed : Bool) : State :=
  { s with keys := s.keys.set k.val pressed }

/-- `set_key(k, pressed)` (R121); a key number above 15 has no move (D21, log 17). -/
def setKey (k : Nat) (pressed : Bool) (s : State) : Result :=
  if k > 15 then .refused (.noSuchKey k) else .next (s.setKeyBit (Fin.ofNat 16 k) pressed)

/-- `load(bytes)` (R135): the bytes from 0x200 up and nothing else; over 3584 bytes has no move (D21, log 17). -/
def load (bytes : List Byte) (s : State) : Result :=
  if bytes.length > Config.maxProgram then .refused (.programTooLong bytes.length)
  else .next (s.storeBytes 0x200 bytes)

/-- `read_framebuffer()` (R124): all 2048 pixels as they stand. -/
def readFramebuffer (s : State) : Framebuffer := s.fb

/-- `read_sound_timer()` (R125). -/
def readSoundTimer (s : State) : Byte := s.st

/-- The tone is on exactly while the sound timer is nonzero (R125). -/
def toneOn (s : State) : Bool := decide (readSoundTimer s ≠ 0)

end Sys2Proof.Machine
end

