-- ==== Sys2Proof/Machine/System.lean ====
section
/-! DEFINITION. The engine and its host together (spec/00_scope.md R8, R9): the moves either agent can
make, each atomic, in any order. The schedule, a list of moves, is a free input of an execution. -/

namespace Sys2Proof.Machine

/-- One move of the system: a tick of the engine, or one operation of the host between two ticks (R9). -/
inductive Move where
  | tick
  | reset
  | decrementTimers
  | setKey (k : Nat) (pressed : Bool)
  | load (bytes : List Byte)
  | readFramebuffer
  | readSoundTimer
  deriving DecidableEq, Repr

/-- The effect of one move; the two reads change nothing (R124, R125). -/
def makeMove (m : Move) (s : State) : Result :=
  match m with
  | .tick => step s
  | .reset => .next (hostReset s)
  | .decrementTimers => .next (Sys2Proof.Machine.decrementTimers s)
  | .setKey k pressed => Sys2Proof.Machine.setKey k pressed s
  | .load bytes => Sys2Proof.Machine.load bytes s
  | .readFramebuffer => .next s
  | .readSoundTimer => .next s

/-- A schedule of moves, run in order until one has no move. -/
def runMoves : List Move → State → Result
  | [], s => .next s
  | m :: ms, s =>
    match makeMove m s with
    | .next t => runMoves ms t
    | .fault f => .fault f
    | .refused r => .refused r

end Sys2Proof.Machine
end

