-- ==== Sys2Proof/Safety.lean ====
section
/-! DEFINITION. What counts as a safe run, the invariants of the machine, and what it means that a piece of
state is unchanged: the terms in which the obligations are written. -/

namespace Sys2Proof.Machine

/-- No fatal error has been raised: a claim that a program runs correctly includes it (R115). -/
def State.unhalted (s : State) : Prop := s.halt = none

/-- Ready to fetch (R35). -/
def State.isReady (s : State) : Prop := s.halt = none ∧ s.wait = none

/-- Two states hold the same byte at every address. -/
def sameBytes (s t : State) : Prop := ∀ a : Nat, t.byte a = s.byte a

/-- Every byte outside the `len` addresses from `a` up is unchanged. -/
def sameBytesOutside (a len : Nat) (s t : State) : Prop :=
  ∀ b : Nat, b < a ∨ a + len ≤ b → t.byte b = s.byte b

/-- Every pixel is unchanged. -/
def samePixels (s t : State) : Prop := ∀ px py, t.pixel px py = s.pixel px py

/-- Every general register but those in `rs` is unchanged. -/
def sameRegsBut (rs : List Reg) (s t : State) : Prop := ∀ r, r ∉ rs → t.reg r = s.reg r

/-- The call stack is unchanged: its pointer and all its slots. -/
def sameStack (s t : State) : Prop := t.sp = s.sp ∧ ∀ k, t.slot k = s.slot k

/-- Both timers are unchanged. -/
def sameTimers (s t : State) : Prop := t.dt = s.dt ∧ t.st = s.st

/-- The key latch is unchanged. -/
def sameKeys (s t : State) : Prop := ∀ k, t.key k = s.key k

/-- Both latches of the engine are unchanged. -/
def sameLatches (s t : State) : Prop := t.wait = s.wait ∧ t.halt = s.halt

/-- Everything but memory, the general registers, `I`, `pc`, the framebuffer, the timers and the call stack
is unchanged: the key latch, the two latches, the count of draws. No instruction but an unsatisfied `Fx0A`,
a raise and `Cxnn` changes any of these. -/
def sameRest (s t : State) : Prop := sameKeys s t ∧ sameLatches s t ∧ t.draws = s.draws

/-- The frame of an instruction that writes general registers `rs` and `pc` only. -/
def onlyRegs (rs : List Reg) (s t : State) : Prop :=
  sameRegsBut rs s t ∧ t.index = s.index ∧ sameBytes s t ∧ samePixels s t ∧ sameStack s t ∧
    sameTimers s t ∧ sameRest s t

/-- The latches fit together: a halted engine is not also awaiting a key (R35, R114). -/
def State.latchesFit (s : State) : Prop := s.halt ≠ none → s.wait = none

/-- The bounds of `pc` and of every call-stack slot that R18 derives: `pc` at most 0x10FE, every slot a
possible return address, and `pc` in fetch range while Blocked (R16: it is the address of an `Fx0A`). -/
def State.pcBounded (s : State) : Prop :=
  s.pc.toNat ≤ 0x10FE ∧ (∀ k, (s.slot k).toNat ≤ 4096) ∧ (s.wait ≠ none → s.pc.toNat ≤ 4094)

/-- The invariant of the machine: the memory is canonical, the latches fit, `pc` and the stack are bounded. -/
def State.Inv (s : State) : Prop := s.mem.wf = true ∧ s.latchesFit ∧ s.pcBounded

/-- The fatal errors and when a Ready tick raises each: the tables of R109 and R113, line by line. -/
inductive Raises (s : State) : FatalError → Prop where
  /-- Fetch with `pc > 4094`. -/
  | fetch (h : 4094 < s.pc.toNat) : Raises s (.outOfRange .memory (s.pc.toNat + 1))
  /-- A word in fetch range that is no instruction (R66). -/
  | unknown (h : s.pc.toNat ≤ 4094) (hw : decodeWord s.opcode = none) :
      Raises s (.unknownOpcode s.opcode)
  /-- `CALL` with `SP = 16`. -/
  | overflow (h : s.pc.toNat ≤ 4094) (nnn : Addr) (hw : decodeWord s.opcode = some (.call nnn))
      (hsp : s.sp.val = 16) : Raises s .stackOverflow
  /-- `RET` with `SP = 0`. -/
  | underflow (h : s.pc.toNat ≤ 4094) (hw : decodeWord s.opcode = some .ret) (hsp : s.sp.val = 0) :
      Raises s .stackUnderflow
  /-- `Dxyn` with `n > 0` and `I + n - 1 > 4095`. -/
  | sprite (h : s.pc.toNat ≤ 4094) (x y : Reg) (n : Nat) (hw : decodeWord s.opcode = some (.drw x y n))
      (hn : 0 < n) (hi : 4095 < s.index.toNat + n - 1) :
      Raises s (.outOfRange .memory (s.index.toNat + n - 1))
  /-- `Fx33` with `I + 2 > 4095`. -/
  | bcd (h : s.pc.toNat ≤ 4094) (x : Reg) (hw : decodeWord s.opcode = some (.ldB x))
      (hi : 4095 < s.index.toNat + 2) : Raises s (.outOfRange .memory (s.index.toNat + 2))
  /-- `Fx55` with `I + x > 4095`. -/
  | store (h : s.pc.toNat ≤ 4094) (x : Reg) (hw : decodeWord s.opcode = some (.storeRegs x))
      (hi : 4095 < s.index.toNat + x.val) : Raises s (.outOfRange .memory (s.index.toNat + x.val))
  /-- `Fx65` with `I + x > 4095`. -/
  | load (h : s.pc.toNat ≤ 4094) (x : Reg) (hw : decodeWord s.opcode = some (.loadRegs x))
      (hi : 4095 < s.index.toNat + x.val) : Raises s (.outOfRange .memory (s.index.toNat + x.val))
  /-- `Ex9E` with `V[x] > 15`. -/
  | skp (h : s.pc.toNat ≤ 4094) (x : Reg) (hw : decodeWord s.opcode = some (.skp x))
      (hk : 15 < (s.reg x).toNat) : Raises s (.outOfRange .keyIndex (s.reg x).toNat)
  /-- `ExA1` with `V[x] > 15`. -/
  | sknp (h : s.pc.toNat ≤ 4094) (x : Reg) (hw : decodeWord s.opcode = some (.sknp x))
      (hk : 15 < (s.reg x).toNat) : Raises s (.outOfRange .keyIndex (s.reg x).toNat)
  /-- `Fx29` with `V[x] > 15`. -/
  | glyph (h : s.pc.toNat ≤ 4094) (x : Reg) (hw : decodeWord s.opcode = some (.ldF x))
      (hk : 15 < (s.reg x).toNat) : Raises s (.outOfRange .glyphIndex (s.reg x).toNat)

end Sys2Proof.Machine
end

