-- ==== Sys2Proof/Certificates/Slice0/Obligations.lean ====
section
/-! DEFINITION. The statements for the provers, in this order: encoding, the cycle and its fatal errors,
invariants, whole-machine rules, the host's operations, the instructions family by family. -/

open Sys2Proof Sys2Proof.Machine

/-! ### Encoding -/

/-- Decoding the encoding of a well-formed instruction gives it back, as a word and as bytes with anything
after them (spec/30_encoding.md, formats of section 1, maps of section 2). -/
def Obligations.DecodeOfEncodeIsIdentity : Prop :=
  ∀ i : Instr, i.wellFormed = true →
    decodeWord (encode i) = some i ∧
      ∀ rest : List Byte, decodeBytes (encodeBytes i ++ rest) = .ok (i, rest)

/-- A word that decodes is the encoding of what it decodes to, which is well formed: every bit of a legal word
is carried by the instruction, the unused `y` of the shifts included. -/
def Obligations.EncodeOfDecodeIsIdentity : Prop :=
  ∀ (w : Word) (i : Instr), decodeWord w = some i → i.wellFormed = true ∧ encode i = w

/-- R60: there are 34 rows; a word decodes to an instruction exactly when it matches that instruction's row; the
rows are pairwise disjoint; a word that matches none is Unknown, and the tick that fetches it raises
`UnknownOpcode`. -/
def Obligations.DecodeFollowsOpcodeTable : Prop :=
  opcodeRows.length = 34 ∧
  (∀ (w : Word) (i : Instr), decodeWord w = some i → matchesRow w (rowOf i) = true ∧ rowOf i ∈ opcodeRows) ∧
  (∀ w : Word, ∀ row ∈ opcodeRows, matchesRow w row = true → ∃ i, decodeWord w = some i ∧ rowOf i = row) ∧
  opcodeRows.Pairwise (fun r q => ∀ w : Word, ¬ (matchesRow w r = true ∧ matchesRow w q = true)) ∧
  (∀ s : State, s.isReady → s.pc.toNat ≤ 4094 → (∀ row ∈ opcodeRows, matchesRow s.opcode row = false) →
    ∃ t, step s = .next t ∧ tickReturns t = .err (.unknownOpcode s.opcode))

/-- The illegal words, class by class (spec/30_encoding.md section 3; strictness is the spec's decision D2). -/
def Obligations.UnknownWordsAreTheListedClasses : Prop :=
  ∀ w : Word, decodeWord w = none ↔
    (bits w 15 12 = 0x0 ∧ w ≠ 0x00E0 ∧ w ≠ 0x00EE) ∨
    (bits w 15 12 = 0x5 ∧ bits w 3 0 ≠ 0) ∨
    (bits w 15 12 = 0x8 ∧ bits w 3 0 ∈ [0x8, 0x9, 0xA, 0xB, 0xC, 0xD, 0xF]) ∨
    (bits w 15 12 = 0x9 ∧ bits w 3 0 ≠ 0) ∨
    (bits w 15 12 = 0xE ∧ bits w 7 0 ∉ [0x9E, 0xA1]) ∨
    (bits w 15 12 = 0xF ∧ bits w 7 0 ∉ [0x07, 0x0A, 0x15, 0x18, 0x1E, 0x29, 0x33, 0x55, 0x65])

/-- Words written out from the spec (spec/95_test_vectors.md; the patterns are the spec's decision D1, log 8):
the three the document gives, then, family by family, the example words of the instructions' rules, then four
words that decode refuses (CY-8, CY-10, CY-11, CY-12; decision D2). -/
def Obligations.WrittenWordsDecodeAsListed : Prop :=
  (decodeWord 0x00E0 = some .cls ∧ decodeWord 0x6005 = some (.ldImm 0 0x05) ∧
    decodeWord 0x7005 = some (.addImm 0 0x05)) ∧
  (decodeWord 0x2ABC = some (.call 0xABC) ∧ decodeWord 0x332A = some (.seImm 3 0x2A) ∧
    decodeWord 0x432A = some (.sneImm 3 0x2A) ∧ decodeWord 0x5120 = some (.seReg 1 2) ∧
    decodeWord 0x9120 = some (.sneReg 1 2)) ∧
  (decodeWord 0x8124 = some (.addReg 1 2) ∧ decodeWord 0x8125 = some (.subReg 1 2) ∧
    decodeWord 0x8127 = some (.subnReg 1 2) ∧ decodeWord 0xC10F = some (.rnd 1 0x0F) ∧
    decodeWord 0xD125 = some (.drw 1 2 5)) ∧
  (decodeWord 0xF60A = some (.ldVxK 6) ∧ decodeWord 0xF307 = some (.ldVxDt 3) ∧
    decodeWord 0xF315 = some (.ldDtVx 3) ∧ decodeWord 0xF255 = some (.storeRegs 2)) ∧
  (decodeWord 0x0000 = none ∧ decodeWord 0x5121 = none ∧ decodeWord 0x8128 = none ∧
    decodeWord 0xE1A0 = none)

/-! ### The cycle and its fatal errors -/

/-- R41: the fetched word is `mem[pc] * 256 + mem[pc+1]`; the byte at the lower address holds `op` and `x`,
the byte at the higher address holds `nn`. -/
def Obligations.FetchIsBigEndian : Prop :=
  ∀ s : State, s.pc.toNat ≤ 4094 →
    ∃ w, fetch s = .ok w ∧
      w.toNat = (s.byte s.pc.toNat).toNat * 256 + (s.byte (s.pc.toNat + 1)).toNat ∧
      bits w 15 12 = (s.byte s.pc.toNat).toNat / 16 ∧ bits w 11 8 = (s.byte s.pc.toNat).toNat % 16 ∧
      bits w 7 0 = (s.byte (s.pc.toNat + 1)).toNat

/-- A step of a Ready machine whose two bytes at `pc` decode is the execution of that instruction, with
nothing added: the advance of `pc` past the word is inside each meaning (log 22). -/
def Obligations.StepRunsDecodedInstruction : Prop :=
  ∀ (s : State) (i : Instr), s.isReady → s.pc.toNat ≤ 4094 →
    decodeBytes [s.byte s.pc.toNat, s.byte (s.pc.toNat + 1)] = .ok (i, []) →
    step s = exec i s

/-- The order of causes in one tick: Halted, Blocked, fetch range, unknown opcode, execute, with what each
leaves and what the tick returns (spec/60_exceptions.md sections 1 and 2; decisions D6, D7, D25). -/
def Obligations.TickFollowsPriorityOrder : Prop :=
  ∀ s : State,
    (∀ e, s.halt = some e → step s = .next s ∧ tickReturns s = .err e) ∧
    (∀ x, s.halt = none → s.wait = some x → step s = blockedTick x s) ∧
    (s.isReady → 4094 < s.pc.toNat →
      step s = .next (s.halted (.outOfRange .memory (s.pc.toNat + 1)))) ∧
    (s.isReady → s.pc.toNat ≤ 4094 → decodeWord s.opcode = none →
      step s = .next (s.halted (.unknownOpcode s.opcode))) ∧
    (∀ i, s.isReady → s.pc.toNat ≤ 4094 → decodeWord s.opcode = some i → step s = exec i s)

/-- Every step of every state answers a next state: nothing is refused, and a fatal error is a state (log 1). -/
def Obligations.StepAlwaysAnswersNext : Prop := ∀ s : State, ∃ t, step s = .next t

/-- A raise is precise: the tick that sets `HALT` changes nothing else, `pc` included (decision D6). -/
def Obligations.RaiseChangesOnlyHalt : Prop :=
  ∀ (s t : State) (e : FatalError), step s = .next t → s.halt = none → t.halt = some e →
    t = s.halted e ∧ t.wait = none ∧ t.pc = s.pc ∧ tickReturns t = .err e

/-- A Ready tick raises exactly what the tables of fatal errors list, exactly when they list it
(spec/60_exceptions.md section 1; decisions D2, D5). -/
def Obligations.RaisesExactlyTheListedErrors : Prop :=
  ∀ (s : State) (e : FatalError), s.isReady →
    ((∃ t, step s = .next t ∧ t.halt = some e) ↔ Raises s e)

/-- Halted is absorbing for every move but `reset`, and `reset` leaves it (decision D7). -/
def Obligations.HaltLastsUntilReset : Prop :=
  (∀ (m : Move) (s t : State) (e : FatalError), makeMove m s = .next t → s.halt = some e →
    m ≠ .reset → t.halt = some e) ∧
  (∀ s t : State, makeMove .reset s = .next t → t.isReady)

/-! ### Invariants -/

/-- Every step keeps the invariant: the memory canonical, the latches fitting, `pc` and the stack bounded. -/
def Obligations.StepKeepsInvariant : Prop :=
  ∀ s t : State, s.Inv → step s = .next t → t.Inv

/-- The reset state meets the invariant. -/
def Obligations.ResetMeetsInvariant : Prop := State.reset.Inv

/-- Every move of the engine or the host keeps the invariant. -/
def Obligations.EveryMoveKeepsInvariant : Prop :=
  ∀ (m : Move) (s t : State), s.Inv → makeMove m s = .next t → t.Inv

/-- Whatever the host's schedule, every state reached from reset meets the invariant. -/
def Obligations.ReachableStatesMeetInvariant : Prop :=
  ∀ (ms : List Move) (t : State), runMoves ms State.reset = .next t → t.Inv

/-! ### Whole-machine rules -/

/-- No tick changes the key latch; the host's `set_key` and `reset` are the only moves that do. -/
def Obligations.KeyLatchIsWrittenByHostOnly : Prop :=
  ∀ (m : Move) (s t : State), makeMove m s = .next t →
    sameKeys s t ∨ m = .reset ∨ ∃ k p, m = .setKey k p

/-- R23: a tick changes a timer only through `Fx15` or `Fx18`; a decrement counts each timer down by one,
never below zero, each on its own. -/
def Obligations.TimersChangeOnlyAsStated : Prop :=
  (∀ s t : State, step s = .next t →
    (t.dt = s.dt ∨ (s.isReady ∧ ∃ x, decodeWord s.opcode = some (.ldDtVx x) ∧ t.dt = s.reg x)) ∧
    (t.st = s.st ∨ (s.isReady ∧ ∃ x, decodeWord s.opcode = some (.ldStVx x) ∧ t.st = s.reg x))) ∧
  (∀ s : State, (decrementTimers s).dt.toNat = s.dt.toNat - 1 ∧
    (decrementTimers s).st.toNat = s.st.toNat - 1)

/-- A tick changes a pixel only when it executes `CLS` or `DRW` (spec/10_state.md section 6, C7). -/
def Obligations.ScreenChangesOnlyByClsAndDrw : Prop :=
  ∀ s t : State, step s = .next t →
    samePixels s t ∨
      (s.isReady ∧ (decodeWord s.opcode = some .cls ∨ ∃ x y n, decodeWord s.opcode = some (.drw x y n)))

/-- A tick changes a byte of memory only when it executes `Fx33` or `Fx55`, and then only a byte from `I` to
`I + 2` or to `I + x` (spec/20_memory.md section 1). -/
def Obligations.MemoryChangesOnlyByStores : Prop :=
  ∀ s t : State, step s = .next t →
    sameBytes s t ∨
      (s.isReady ∧ ∃ x, (decodeWord s.opcode = some (.ldB x) ∧ sameBytesOutside s.index.toNat 3 s t) ∨
        (decodeWord s.opcode = some (.storeRegs x) ∧ sameBytesOutside s.index.toNat (x.val + 1) s t))

/-- A tick changes the call stack only when it executes `CALL` or `RET`, and `I` only when it executes
`LD I`, `ADD I` or `LD F` (spec/10_state.md sections 5 and 6; `I` with the decided LOADSTORE_INC_I, D9). -/
def Obligations.StackAndIndexHaveFewWriters : Prop :=
  ∀ s t : State, step s = .next t →
    (sameStack s t ∨
      (s.isReady ∧ (decodeWord s.opcode = some .ret ∨ ∃ nnn, decodeWord s.opcode = some (.call nnn)))) ∧
    (t.index = s.index ∨
      (s.isReady ∧ ((∃ nnn, decodeWord s.opcode = some (.ldI nnn)) ∨
        (∃ x, decodeWord s.opcode = some (.addI x)) ∨ ∃ x, decodeWord s.opcode = some (.ldF x))))

/-- A store that lands on the next instruction is what the next step executes (spec/20_memory.md section 7); that
V0 and V1 land at `I` and `I + 1` is the layout of `Fx55` (spec/46_timers_index_memory.md section 3, log 25). -/
def Obligations.StoredInstructionRunsNext : Prop :=
  ∀ (s : State) (x : Reg) (i : Instr), s.isReady → 1 ≤ x.val → s.index.toNat = s.pc.toNat + 2 →
    s.index.toNat + x.val ≤ 4095 → decodeWord (wordOfBytes (s.reg 0) (s.reg 1)) = some i →
    ∃ t, exec (.storeRegs x) s = .next t ∧ step t = exec i t

/-! ### The host's operations -/

/-- The state after reset, component by component (spec/10_state.md section 9). The value of `pc` is the spec's
decision D4, and the sixteen glyphs, each written as one number of five bytes, its decision D3. -/
def Obligations.ResetLeavesEveryComponentDefined : Prop :=
  ∀ s t : State, makeMove .reset s = .next t →
    ((List.range 16).map (fun d => (List.range 5).foldl (fun n j => n * 256 + (t.byte (5 * d + j)).toNat) 0) =
      [0xF0909090F0, 0x2060202070, 0xF010F080F0, 0xF010F010F0, 0x9090F01010, 0xF080F010F0,
        0xF080F090F0, 0xF010204040] ++
      [0xF090F090F0, 0xF090F010F0, 0xF090F09090, 0xE090E090E0, 0xF0808080F0, 0xE0909090E0,
        0xF080F080F0, 0xF080F08080]) ∧
    (∀ a, 80 ≤ a → t.byte a = 0) ∧ (∀ r, t.reg r = 0) ∧ t.index = 0 ∧ t.pc = 0x200 ∧
    (∀ k, t.slot k = 0) ∧ t.sp = 0 ∧ (∀ px py, t.pixel px py = false) ∧ t.dt = 0 ∧ t.st = 0 ∧
    (∀ k, t.key k = false) ∧ t.wait = none ∧ t.halt = none

/-- Nothing of the state before a reset survives it, and a second reset changes nothing; the model's own count
of draws is not a component of the spec's state (log 3). -/
def Obligations.ResetForgetsHistory : Prop :=
  ∀ s u : State, { hostReset s with draws := 0 } = { hostReset u with draws := 0 } ∧
    hostReset (hostReset s) = hostReset s ∧ { hostReset s with draws := 0 } = State.reset

/-- R120: both timers down by 1, floored at 0, and nothing else changes, in every engine state. -/
def Obligations.DecrementTimersFloorsAtZero : Prop :=
  ∀ s : State, ∃ t, makeMove .decrementTimers s = .next t ∧
    t.dt.toNat = s.dt.toNat - 1 ∧ t.st.toNat = s.st.toNat - 1 ∧ sameRegsBut [] s t ∧
    t.index = s.index ∧ t.pc = s.pc ∧ sameBytes s t ∧ samePixels s t ∧ sameStack s t ∧ sameRest s t

/-- `set_key(k, pressed)` for `k` in 0..15 sets that key's flag and changes nothing else; above 15 the machine
has no move and refuses by name (spec/60_exceptions.md section 3; decision D21, log 17). -/
def Obligations.SetKeyWritesOneFlag : Prop :=
  (∀ (s : State) (k : Fin 16) (p : Bool), ∃ t, makeMove (.setKey k.val p) s = .next t ∧
    t.key k = p ∧ (∀ j, j ≠ k → t.key j = s.key j) ∧ sameRegsBut [] s t ∧ t.index = s.index ∧
    t.pc = s.pc ∧ sameBytes s t ∧ samePixels s t ∧ sameStack s t ∧ sameTimers s t ∧
    sameLatches s t ∧ t.draws = s.draws) ∧
  ∀ (s : State) (k : Nat) (p : Bool), 15 < k → makeMove (.setKey k p) s = .refused (.noSuchKey k)

/-- `load(bytes)` of at most 3584 bytes writes them from 0x200 up and changes nothing else; a longer program has
no move and is refused by name (spec/70_reset_and_hazards.md section 2; decision D21, log 17). -/
def Obligations.LoadWritesTheProgramBytes : Prop :=
  ∀ (s : State) (bytes : List Byte),
    (bytes.length ≤ 3584 → ∃ t, makeMove (.load bytes) s = .next t ∧
      (∀ j, j < bytes.length → t.byte (0x200 + j) = bytes.getD j 0) ∧
      sameBytesOutside 0x200 bytes.length s t ∧ sameRegsBut [] s t ∧ t.index = s.index ∧
      t.pc = s.pc ∧ samePixels s t ∧ sameStack s t ∧ sameTimers s t ∧ sameRest s t) ∧
    (3584 < bytes.length → makeMove (.load bytes) s = .refused (.programTooLong bytes.length))

/-! ### Clear screen, jumps, calls -/

/-- R72: `CLS` completes with every pixel false, writes neither VF nor anything else, and `pc` advances by 2;
its word is 0x00E0. -/
def Obligations.ClsClearsTheScreen : Prop :=
  decodeWord 0x00E0 = some .cls ∧
  ∀ s : State, ∃ t, exec .cls s = .next t ∧ (∀ px py, t.pixel px py = false) ∧ t.pc = s.pc + 2 ∧
    sameRegsBut [] s t ∧ t.index = s.index ∧ sameBytes s t ∧ sameStack s t ∧ sameTimers s t ∧ sameRest s t

/-- `RET` on a stack that is not empty completes: `pc` is the newest slot, whatever it holds, `SP` one less, the
slots as they were (decision D22, log 15); on an empty stack it raises `StackUnderflow` (spec/40_flow.md
section 3). Its word is 0x00EE (log 8). -/
def Obligations.RetPopsTheNewestAddress : Prop :=
  decodeWord 0x00EE = some .ret ∧
  (∀ (s : State) (k : Fin 16), s.sp.val = k.val + 1 → ∃ t, exec .ret s = .next t ∧ t.pc = s.slot k ∧
    t.sp.val = k.val ∧ (∀ j, t.slot j = s.slot j) ∧ sameRegsBut [] s t ∧ t.index = s.index ∧
    sameBytes s t ∧ samePixels s t ∧ sameTimers s t ∧ sameRest s t) ∧
  ∀ s : State, s.sp.val = 0 → ∃ t, exec .ret s = .next t ∧ t.halt = some .stackUnderflow ∧
    tickReturns t = .err .stackUnderflow

/-- `JP nnn` completes with `pc` the immediate address, odd ones included (decision D16, log 14), and nothing else
changed; a jump to itself leaves the whole state unchanged; after a jump to 0xFFF the next fetch raises
`OutOfRange(Memory, 0x1000)` (decision D5, log 9; spec/40_flow.md section 4). The word 0x1234 is `JP 0x234`
(log 8). -/
def Obligations.JpSetsPcOnly : Prop :=
  decodeWord 0x1234 = some (.jp 0x234) ∧
  ∀ (s : State) (nnn : Addr),
    (∃ t, exec (.jp nnn) s = .next t ∧ t.pc.toNat = nnn.toNat ∧ onlyRegs [] s t) ∧
    (s.pc.toNat = nnn.toNat → exec (.jp nnn) s = .next s) ∧
    (s.isReady → nnn = 0xFFF → ∃ t u, exec (.jp nnn) s = .next t ∧ step t = .next u ∧
      u.halt = some (.outOfRange .memory 0x1000))

/-- `CALL nnn` below capacity completes: the slot at `SP` holds the address after the `CALL`, `SP` is one
more, `pc` the immediate address (spec/40_flow.md section 5; that A + 2 is pushed is derived there). -/
def Obligations.CallPushesTheNextAddress : Prop :=
  ∀ (s : State) (nnn : Addr) (k : Fin 16), s.sp.val = k.val → ∃ t, exec (.call nnn) s = .next t ∧
    t.slot k = s.pc + 2 ∧ t.sp.val = k.val + 1 ∧ t.pc.toNat = nnn.toNat ∧
    (∀ j, j ≠ k → t.slot j = s.slot j) ∧ sameRegsBut [] s t ∧ t.index = s.index ∧ sameBytes s t ∧
    samePixels s t ∧ sameTimers s t ∧ sameRest s t

/-- R110, R111: the push beyond 16 and the pop of an empty stack halt the engine with their errors; no slot is
written and `SP` stays. -/
def Obligations.StackLimitsHaltTheEngine : Prop :=
  (∀ (s : State) (nnn : Addr), s.sp.val = 16 → ∃ t, exec (.call nnn) s = .next t ∧
    t.halt = some .stackOverflow ∧ tickReturns t = .err .stackOverflow ∧ sameStack s t) ∧
  (∀ s : State, s.sp.val = 0 → ∃ t, exec .ret s = .next t ∧
    t.halt = some .stackUnderflow ∧ tickReturns t = .err .stackUnderflow ∧ sameStack s t)

/-- A call and a return right after it come back to the instruction after the call, with the stack as deep as
before. -/
def Obligations.ReturnComesBackAfterCall : Prop :=
  ∀ (s : State) (nnn : Addr), s.sp.val < 16 → ∃ t u, exec (.call nnn) s = .next t ∧
    exec .ret t = .next u ∧ u.pc = s.pc + 2 ∧ u.sp = s.sp ∧ sameRegsBut [] s u ∧ sameBytes s u

/-- `JP V0,nnn` completes with `pc` the sum, not reduced to 12 bits (spec/40_flow.md section 6; D17). -/
def Obligations.JpV0AddsV0Unmasked : Prop :=
  ∀ (s : State) (nnn : Addr), ∃ t, exec (.jpV0 nnn) s = .next t ∧
    t.pc.toNat = nnn.toNat + (s.reg 0).toNat ∧ onlyRegs [] s t

/-! ### Skips -/

/-- R77 to R80: each skip completes, advances `pc` by 4 when its condition holds and by 2 when it does not, and
writes nothing else; what stands in the bytes skipped over does not matter. -/
def Obligations.SkipsAdvanceByFourOrTwo : Prop :=
  ∀ (s : State) (x y : Reg) (nn : Byte),
    (∃ t, exec (.seImm x nn) s = .next t ∧ onlyRegs [] s t ∧
      t.pc = s.pc + if s.reg x = nn then 4 else 2) ∧
    (∃ t, exec (.sneImm x nn) s = .next t ∧ onlyRegs [] s t ∧
      t.pc = s.pc + if s.reg x ≠ nn then 4 else 2) ∧
    (∃ t, exec (.seReg x y) s = .next t ∧ onlyRegs [] s t ∧
      t.pc = s.pc + if s.reg x = s.reg y then 4 else 2) ∧
    (∃ t, exec (.sneReg x y) s = .next t ∧ onlyRegs [] s t ∧
      t.pc = s.pc + if s.reg x ≠ s.reg y then 4 else 2)

/-! ### Arithmetic and logic -/

/-- The two register loads complete with `V[x]` the immediate or the old `V[y]` (spec/42_arithmetic.md sections 2
and 3; 8xy0 as a copy: log 25); VF is written only as `V[x]` (decision D12, log 13). The words 0x6005 and 0x8120
are `LD V0,0x05` and `LD V1,V2` (log 8). -/
def Obligations.RegisterLoadsWriteVxOnly : Prop :=
  decodeWord 0x6005 = some (.ldImm 0 0x05) ∧ decodeWord 0x8120 = some (.ldReg 1 2) ∧
  ∀ (s : State) (x y : Reg) (nn : Byte),
    (∃ t, exec (.ldImm x nn) s = .next t ∧ t.reg x = nn ∧ t.pc = s.pc + 2 ∧ onlyRegs [x] s t) ∧
    (∃ t, exec (.ldReg x y) s = .next t ∧ t.reg x = s.reg y ∧ t.pc = s.pc + 2 ∧ onlyRegs [x] s t)

/-- `ADD Vx,nn` completes with the wrapped sum in `V[x]` and VF not written as a flag (spec/42_arithmetic.md
section 2; decision D11, C4). -/
def Obligations.AddImmediateLeavesVfAlone : Prop :=
  ∀ (s : State) (x : Reg) (nn : Byte), ∃ t, exec (.addImm x nn) s = .next t ∧
    (t.reg x).toNat = ((s.reg x).toNat + nn.toNat) % 256 ∧ t.pc = s.pc + 2 ∧ onlyRegs [x] s t

/-- The three logic instructions complete, bit by bit, and do not write VF as a flag (spec/42_arithmetic.md
section 3; decision D12). -/
def Obligations.LogicWorksBitByBit : Prop :=
  ∀ (s : State) (x y : Reg),
    (∃ t, exec (.orReg x y) s = .next t ∧ t.pc = s.pc + 2 ∧ onlyRegs [x] s t ∧
      ∀ i < 8, (t.reg x).getLsbD i = ((s.reg x).getLsbD i || (s.reg y).getLsbD i)) ∧
    (∃ t, exec (.andReg x y) s = .next t ∧ t.pc = s.pc + 2 ∧ onlyRegs [x] s t ∧
      ∀ i < 8, (t.reg x).getLsbD i = ((s.reg x).getLsbD i && (s.reg y).getLsbD i)) ∧
    (∃ t, exec (.xorReg x y) s = .next t ∧ t.pc = s.pc + 2 ∧ onlyRegs [x] s t ∧
      ∀ i < 8, (t.reg x).getLsbD i = ((s.reg x).getLsbD i ^^ (s.reg y).getLsbD i))

/-- R88: `ADD Vx,Vy` completes; a destination that is not VF holds the sum modulo 256, and VF ends as the carry
of the old operands, whatever `x` and `y` are. -/
def Obligations.AddSetsCarryInVf : Prop :=
  ∀ (s : State) (x y : Reg), ∃ t, exec (.addReg x y) s = .next t ∧
    (x ≠ vf → (t.reg x).toNat = ((s.reg x).toNat + (s.reg y).toNat) % 256) ∧
    (t.reg vf).toNat = (if (s.reg x).toNat + (s.reg y).toNat > 255 then 1 else 0) ∧
    t.pc = s.pc + 2 ∧ onlyRegs [x, vf] s t

/-- R89, R91: the two subtractions complete; a destination that is not VF holds the wrapped difference, and VF
ends as 1 exactly when the minuend is at least the subtrahend. -/
def Obligations.SubtractionsSetNotBorrowInVf : Prop :=
  ∀ (s : State) (x y : Reg),
    (∃ t, exec (.subReg x y) s = .next t ∧
      (x ≠ vf → (t.reg x).toNat = ((s.reg x).toNat + 256 - (s.reg y).toNat) % 256) ∧
      (t.reg vf).toNat = (if (s.reg x).toNat ≥ (s.reg y).toNat then 1 else 0) ∧
      t.pc = s.pc + 2 ∧ onlyRegs [x, vf] s t) ∧
    (∃ t, exec (.subnReg x y) s = .next t ∧
      (x ≠ vf → (t.reg x).toNat = ((s.reg y).toNat + 256 - (s.reg x).toNat) % 256) ∧
      (t.reg vf).toNat = (if (s.reg y).toNat ≥ (s.reg x).toNat then 1 else 0) ∧
      t.pc = s.pc + 2 ∧ onlyRegs [x, vf] s t)

/-- The shifts complete, by one place, of `V[x]` itself (decision D8: SHIFT_SRC = VX; log 4); VF ends as the
bit shifted out. -/
def Obligations.ShiftsMoveTheLostBitToVf : Prop :=
  ∀ (s : State) (x y : Reg),
    (∃ t, exec (.shr x y) s = .next t ∧
      (x ≠ vf → (t.reg x).toNat = (s.reg x).toNat / 2) ∧ (t.reg vf).toNat = (s.reg x).toNat % 2 ∧
      t.pc = s.pc + 2 ∧ onlyRegs [x, vf] s t) ∧
    (∃ t, exec (.shl x y) s = .next t ∧
      (x ≠ vf → (t.reg x).toNat = (s.reg x).toNat * 2 % 256) ∧
      (t.reg vf).toNat = (s.reg x).toNat / 128 ∧
      t.pc = s.pc + 2 ∧ onlyRegs [x, vf] s t)

/-- The shifts for either value of SHIFT_SRC (decision D8, log 4): the operand is `V[x]` or `V[y]`; the result and
the flag are the operand's; `pc` advances by 2, and only `V[x]` and VF are written. With `x = y` the two values
give one state. -/
def Obligations.ShiftSourcesDifferOnlyInOperand : Prop :=
  ∀ (src : ShiftSrc) (s : State) (x y : Reg),
    (s.shiftOperand .vx x y = s.reg x ∧ s.shiftOperand .vy x y = s.reg y) ∧
    ((x ≠ vf → ((shiftRight src x y s).reg x).toNat = (s.shiftOperand src x y).toNat / 2) ∧
      ((shiftRight src x y s).reg vf).toNat = (s.shiftOperand src x y).toNat % 2 ∧
      (shiftRight src x y s).pc = s.pc + 2 ∧ onlyRegs [x, vf] s (shiftRight src x y s)) ∧
    ((x ≠ vf → ((shiftLeft src x y s).reg x).toNat = (s.shiftOperand src x y).toNat * 2 % 256) ∧
      ((shiftLeft src x y s).reg vf).toNat = (s.shiftOperand src x y).toNat / 128 ∧
      (shiftLeft src x y s).pc = s.pc + 2 ∧ onlyRegs [x, vf] s (shiftLeft src x y s)) ∧
    (shiftRight src x x s = shiftRight .vx x x s ∧ shiftLeft src x x s = shiftLeft .vx x x s)

/-! ### Random -/

/-- R93: `RND Vx,nn` completes with `V[x]` some byte masked by `nn`: every bit cleared in `nn` is cleared in
the result, with `nn = 0` the result is 0 and with `nn = 0xFF` it is the byte. -/
def Obligations.RandomByteIsMasked : Prop :=
  ∀ (s : State) (x : Reg) (nn : Byte), ∃ t r, exec (.rnd x nn) s = .next t ∧ t.reg x = r &&& nn ∧
    t.reg x &&& ~~~nn = 0 ∧ (nn = 0 → t.reg x = 0) ∧ (nn = 0xFF → t.reg x = r) ∧
    t.pc = s.pc + 2 ∧ sameRegsBut [x] s t ∧ t.index = s.index ∧ sameBytes s t ∧ samePixels s t ∧ sameStack s t ∧ sameTimers s t ∧
    sameKeys s t ∧ sameLatches s t

/-- The model's form of the free input (log 3): for every mask, `RND` takes the draw numbered by the counter and
advances the counter; a tick that executes no `RND` neither advances the counter nor reads it: from the same state
with any other count it steps to the same state with that count. -/
def Obligations.EachRandomDrawIsFresh : Prop :=
  (∀ (s : State) (x : Reg) (nn : Byte), ∃ t, exec (.rnd x nn) s = .next t ∧
    t.reg x = Config.drawByte s.draws &&& nn ∧ t.draws = s.draws + 1) ∧
  (∀ s t : State, step s = .next t →
    (t.draws = s.draws ∧ ∀ d : Nat, step { s with draws := d } = .next { t with draws := d }) ∨
      (s.isReady ∧ s.pc.toNat ≤ 4094 ∧ ∃ x nn, decodeWord s.opcode = some (.rnd x nn)))

/-! ### Draw -/

/-- `DRW Vx,Vy,n` in range completes: a pixel flips exactly when a 1 bit of the sprite lands on it, wrapped
modulo 64 and 32, and VF ends as 1 exactly when some pixel went from on to off (spec/44_draw.md; bit and row
order are the spec's decision D14). -/
def Obligations.DrawXorsSpriteIntoScreen : Prop :=
  ∀ (s : State) (x y : Reg) (n : Nat), n ≤ 15 → (n = 0 ∨ s.index.toNat + n - 1 ≤ 4095) →
    ∃ t, exec (.drw x y n) s = .next t ∧
      (∀ px py, t.pixel px py ≠ s.pixel px py ↔ ∃ r < n, ∃ c < 8,
        ((s.reg x).toNat + c) % 64 = px.val ∧ ((s.reg y).toNat + r) % 32 = py.val ∧
          (s.byte (s.index.toNat + r)).getLsbD (7 - c) = true) ∧
      ((∃ px py, s.pixel px py = true ∧ t.pixel px py = false) → t.reg vf = 1) ∧
      ((¬ ∃ px py, s.pixel px py = true ∧ t.pixel px py = false) → t.reg vf = 0) ∧
      t.pc = s.pc + 2 ∧ sameRegsBut [vf] s t ∧ t.index = s.index ∧ sameBytes s t ∧ sameStack s t ∧
      sameTimers s t ∧ sameRest s t

/-- The same sprite drawn twice restores the screen; the second draw collides exactly when the first
turned a pixel on; a sprite with a 1 bit collides at least once (spec/44_draw.md). -/
def Obligations.DrawTwiceRestoresScreen : Prop :=
  ∀ (s : State) (x y : Reg) (n : Nat), x ≠ vf → y ≠ vf → n ≤ 15 →
    (n = 0 ∨ s.index.toNat + n - 1 ≤ 4095) →
    ∃ t u, exec (.drw x y n) s = .next t ∧ exec (.drw x y n) t = .next u ∧ samePixels s u ∧
      (u.reg vf = 1 ↔ ∃ px py, s.pixel px py = false ∧ t.pixel px py = true) ∧
      ((∃ r < n, ∃ c < 8, (s.byte (s.index.toNat + r)).getLsbD c = true) →
        t.reg vf = 1 ∨ u.reg vf = 1)

/-! ### Keys -/

/-- Both key skips, with a key number in range, complete by the level of that key and write nothing else; above
15 they raise (spec/45_keys.md; decision D5, log 9) and change nothing but `HALT` (decision D6, log 1). -/
def Obligations.KeySkipsTestTheLatch : Prop :=
  (∀ (s : State) (x : Reg) (k : Fin 16), (s.reg x).toNat = k.val →
    (∃ t, exec (.skp x) s = .next t ∧ onlyRegs [] s t ∧ t.pc = s.pc + if s.key k = true then 4 else 2) ∧
    (∃ t, exec (.sknp x) s = .next t ∧ onlyRegs [] s t ∧ t.pc = s.pc + if s.key k = true then 2 else 4)) ∧
  ∀ (s : State) (x : Reg), 15 < (s.reg x).toNat →
    exec (.skp x) s = .next (s.halted (.outOfRange .keyIndex (s.reg x).toNat)) ∧
    exec (.sknp x) s = .next (s.halted (.outOfRange .keyIndex (s.reg x).toNat))

/-- `LD Vx,K` with a key pressed completes with the least pressed key's number; with none it latches its target
and keeps `pc` on itself, and nothing else changes (spec/45_keys.md; decision D13). -/
def Obligations.KeyWaitTakesLeastKeyOrBlocks : Prop :=
  ∀ (s : State) (x : Reg),
    (∀ k, s.key k = true → (∀ j < k, s.key j = false) →
      ∃ t, exec (.ldVxK x) s = .next t ∧ (t.reg x).toNat = k.val ∧ t.pc = s.pc + 2 ∧ onlyRegs [x] s t) ∧
    ((∀ k, s.key k = false) →
      ∃ t, exec (.ldVxK x) s = .next t ∧ t.wait = some x ∧ t.pc = s.pc ∧ t.halt = s.halt ∧
        sameRegsBut [] s t ∧ t.index = s.index ∧ sameBytes s t ∧ samePixels s t ∧ sameStack s t ∧
        sameTimers s t ∧ sameKeys s t ∧ t.draws = s.draws)

/-- A Blocked tick with a key pressed writes the least one's number to the latched register, passes the
`Fx0A` and makes the engine Ready; with no key pressed it changes nothing; it returns Ok either way
(spec/45_keys.md; that the least key is taken, by level, is decision D13, log 10). -/
def Obligations.BlockedTickPollsTheKeys : Prop :=
  ∀ (s : State) (x : Reg), s.halt = none → s.wait = some x →
    (∀ k, s.key k = true → (∀ j < k, s.key j = false) →
      ∃ t, step s = .next t ∧ (t.reg x).toNat = k.val ∧ t.pc = s.pc + 2 ∧ t.isReady ∧
        tickReturns t = .ok ∧ sameRegsBut [x] s t ∧ t.index = s.index ∧ sameBytes s t ∧
        samePixels s t ∧ sameStack s t ∧ sameTimers s t ∧ sameKeys s t ∧ t.draws = s.draws) ∧
    ((∀ k, s.key k = false) → step s = .next s ∧ tickReturns s = .ok)

/-- A Blocked tick does what fetching and executing the `Fx0A` at `pc` again would do (derived in
spec/45_keys.md from its two rules). -/
def Obligations.BlockedTickRepeatsTheKeyWait : Prop :=
  ∀ (s : State) (x : Reg), s.halt = none → s.wait = some x → s.pc.toNat ≤ 4094 →
    decodeWord s.opcode = some (.ldVxK x) → step s = step (s.setWait none)

/-! ### Timers and the index register -/

/-- R100, R101: `LD Vx,DT` and `LD DT,Vx` complete; each writes its one destination. -/
def Obligations.DelayTimerMovesOneByte : Prop :=
  ∀ (s : State) (x : Reg),
    (∃ t, exec (.ldVxDt x) s = .next t ∧ t.reg x = s.dt ∧ t.pc = s.pc + 2 ∧ onlyRegs [x] s t) ∧
    (∃ t, exec (.ldDtVx x) s = .next t ∧ t.dt = s.reg x ∧ t.st = s.st ∧ t.pc = s.pc + 2 ∧
      sameRegsBut [] s t ∧ t.index = s.index ∧ sameBytes s t ∧ samePixels s t ∧ sameStack s t ∧
      sameRest s t)

/-- `LD ST,Vx` (spec/46_timers_index_memory.md section 1) completes and writes `ST` alone; no tick reads `ST`:
from two states that differ in `ST` only, given the same random draw (log 3), a step leaves two states that differ
in `ST` at most. The word 0xF418 is `LD ST,V4` (log 8). -/
def Obligations.SoundTimerIsWrittenAndNeverRead : Prop :=
  decodeWord 0xF418 = some (.ldStVx 4) ∧
  (∀ (s : State) (x : Reg), ∃ t, exec (.ldStVx x) s = .next t ∧ t.st = s.reg x ∧ t.dt = s.dt ∧
    t.pc = s.pc + 2 ∧ sameRegsBut [] s t ∧ t.index = s.index ∧ sameBytes s t ∧ samePixels s t ∧
    sameStack s t ∧ sameRest s t) ∧
  ∀ (s t : State) (b : Byte), step s = .next t →
    ∃ u, step (s.setSt b) = .next u ∧ u.setSt 0 = t.setSt 0

/-- `LD I,nnn` completes with the immediate address, widened with zeros, in `I` and nothing else changed
(spec/46_timers_index_memory.md section 2; decision D10, log 13; its meaning is log 25). The word 0xA2F0 is
`LD I,0x2F0` (log 8). -/
def Obligations.LoadIndexSetsI : Prop :=
  decodeWord 0xA2F0 = some (.ldI 0x2F0) ∧
  ∀ (s : State) (nnn : Addr), ∃ t, exec (.ldI nnn) s = .next t ∧ t.index.toNat = nnn.toNat ∧
    t.pc = s.pc + 2 ∧ sameRegsBut [] s t ∧ sameBytes s t ∧ samePixels s t ∧ sameStack s t ∧
    sameTimers s t ∧ sameRest s t

/-- `LD F,Vx` on a digit 0 to 15 completes with five times the digit in `I`; nothing else changes and memory is
not read; above 15 it raises (spec/46_timers_index_memory.md section 2; decision D5, log 9) and changes nothing
but `HALT` (decision D6, log 1). -/
def Obligations.GlyphAddressIsFiveTimesTheDigit : Prop :=
  ∀ (s : State) (x : Reg),
    ((s.reg x).toNat ≤ 15 → ∃ t, exec (.ldF x) s = .next t ∧ t.index.toNat = 5 * (s.reg x).toNat ∧
      t.pc = s.pc + 2 ∧ sameRegsBut [] s t ∧ sameBytes s t ∧ samePixels s t ∧ sameStack s t ∧
      sameTimers s t ∧ sameRest s t) ∧
    (15 < (s.reg x).toNat →
      exec (.ldF x) s = .next (s.halted (.outOfRange .glyphIndex (s.reg x).toNat)))

/-- `ADD I,Vx` completes with the sum modulo 65536 in `I` and VF untouched (spec/46_timers_index_memory.md
section 2; decision D10). -/
def Obligations.AddIndexWrapsAt65536 : Prop :=
  ∀ (s : State) (x : Reg), ∃ t, exec (.addI x) s = .next t ∧
    t.index.toNat = (s.index.toNat + (s.reg x).toNat) % 65536 ∧ t.pc = s.pc + 2 ∧ sameRegsBut [] s t ∧
    sameBytes s t ∧ samePixels s t ∧ sameStack s t ∧ sameTimers s t ∧ sameRest s t

/-! ### Memory transfers -/

/-- `LD B,Vx` in range completes: the three bytes from `I` up are decimal digits, hundreds first (decision
D15), and every other byte is unchanged. -/
def Obligations.BcdStoresThreeDigits : Prop :=
  ∀ (s : State) (x : Reg), s.address 2 ≤ 4095 → ∃ t, exec (.ldB x) s = .next t ∧
    (t.byte (s.address 0)).toNat * 100 + (t.byte (s.address 1)).toNat * 10 +
      (t.byte (s.address 2)).toNat = (s.reg x).toNat ∧
    (t.byte (s.address 0)).toNat ≤ 2 ∧ (t.byte (s.address 1)).toNat ≤ 9 ∧
    (t.byte (s.address 2)).toNat ≤ 9 ∧ sameBytesOutside (s.address 0) 3 s t ∧ t.pc = s.pc + 2 ∧
    sameRegsBut [] s t ∧ t.index = s.index ∧ samePixels s t ∧ sameStack s t ∧ sameTimers s t ∧ sameRest s t

/-- `LD [I],Vx` in range completes: `V[0]` to `V[x]` in the bytes from `I` up, every other byte unchanged, `I`
unchanged (spec/46_timers_index_memory.md section 3; decision D9). -/
def Obligations.StoreBlockWritesV0ToVx : Prop :=
  ∀ (s : State) (x : Reg), s.address x.val ≤ 4095 → ∃ t, exec (.storeRegs x) s = .next t ∧
    (∀ r : Reg, r.val ≤ x.val → t.byte (s.address r.val) = s.reg r) ∧
    sameBytesOutside (s.address 0) (x.val + 1) s t ∧ t.pc = s.pc + 2 ∧ sameRegsBut [] s t ∧
    t.index = s.index ∧ samePixels s t ∧ sameStack s t ∧ sameTimers s t ∧ sameRest s t

/-- `LD Vx,[I]` in range completes: the bytes from `I` up in `V[0]` to `V[x]`, the higher registers, all of
memory and `I` unchanged (spec/46_timers_index_memory.md section 3; decision D9). -/
def Obligations.LoadBlockReadsV0ToVx : Prop :=
  ∀ (s : State) (x : Reg), s.address x.val ≤ 4095 → ∃ t, exec (.loadRegs x) s = .next t ∧
    (∀ r : Reg, r.val ≤ x.val → t.reg r = s.byte (s.address r.val)) ∧
    (∀ r : Reg, x.val < r.val → t.reg r = s.reg r) ∧ sameBytes s t ∧ t.pc = s.pc + 2 ∧
    t.index = s.index ∧ samePixels s t ∧ sameStack s t ∧ sameTimers s t ∧ sameRest s t

/-- The block moves for either value of LOADSTORE_INC_I differ in `I` alone, which the alternative leaves past
the block (decision D9). -/
def Obligations.BlockConventionsDifferOnlyInIndex : Prop :=
  ∀ (s : State) (x : Reg), s.address x.val ≤ 4095 →
    (storeBlock true x s).index.toNat = s.index.toNat + x.val + 1 ∧
    { storeBlock true x s with index := s.index } = storeBlock false x s ∧
    (loadBlockInto true x s).index.toNat = s.index.toNat + x.val + 1 ∧
    { loadBlockInto true x s with index := s.index } = loadBlockInto false x s

/-- Where a transfer or a sprite reaches above address 4095 the instruction raises, with the highest address it
needed, and nothing else changes: no byte, pixel or register is written (spec/60_exceptions.md section 1;
decisions D5, D6). -/
def Obligations.OutOfRangeAddressesRaise : Prop :=
  ∀ (s : State) (x y : Reg) (n : Nat),
    (0 < n → 4095 < s.index.toNat + n - 1 →
      exec (.drw x y n) s = .next (s.halted (.outOfRange .memory (s.index.toNat + n - 1)))) ∧
    (4095 < s.index.toNat + 2 →
      exec (.ldB x) s = .next (s.halted (.outOfRange .memory (s.index.toNat + 2)))) ∧
    (4095 < s.index.toNat + x.val →
      exec (.storeRegs x) s = .next (s.halted (.outOfRange .memory (s.index.toNat + x.val))) ∧
      exec (.loadRegs x) s = .next (s.halted (.outOfRange .memory (s.index.toNat + x.val))))
end

