-- ==== Sys2Proof/Laws/Decode.lean ====
section
/-! SUPPORT. The masks of spec/opcode_table.json as arithmetic on the fields of a word. -/

namespace Sys2Proof

/-- The high nibble of a word, left in place. -/
theorem toNat_and_F000 (w : Word) : (w &&& 0xF000).toNat = w.toNat / 4096 * 4096 := by
  have hw := w.isLt
  have h : w &&& (0xF000 : Word) = (w >>> 12 <<< 12 : Word) := by
    ext i hi
    have : i = 0 ∨ i = 1 ∨ i = 2 ∨ i = 3 ∨ i = 4 ∨ i = 5 ∨ i = 6 ∨ i = 7 ∨ i = 8 ∨ i = 9 ∨ i = 10 ∨
        i = 11 ∨ i = 12 ∨ i = 13 ∨ i = 14 ∨ i = 15 := by omega
    rcases this with rfl | rfl | rfl | rfl | rfl | rfl | rfl | rfl | rfl | rfl | rfl | rfl | rfl | rfl |
      rfl | rfl <;> simp
  rw [h]
  simp [Nat.shiftLeft_eq, Nat.shiftRight_eq_div_pow]
  omega

/-- The low nibble of a word. -/
theorem toNat_and_000F (w : Word) : (w &&& 0x000F).toNat = w.toNat % 16 := by
  have := Nat.and_two_pow_sub_one_eq_mod w.toNat 4
  simpa using this

/-- The low byte of a word. -/
theorem toNat_and_00FF (w : Word) : (w &&& 0x00FF).toNat = w.toNat % 256 := by
  have := Nat.and_two_pow_sub_one_eq_mod w.toNat 8
  simpa using this

/-- A mask of the high nibble and of low bits splits into a sum. -/
theorem and_split (w low : Word) (h : (0xF000 : Word) &&& low = 0) :
    w &&& (0xF000 ||| low) = (w &&& 0xF000) + (w &&& low) := by
  rw [BitVec.add_eq_or_of_and_eq_zero, BitVec.and_or_distrib_left]
  rw [show w &&& 0xF000 &&& (w &&& low) = (w &&& w) &&& (0xF000 &&& low) by ac_rfl, h]
  simp

/-- The mask `0xF00F`: the high nibble in place and the low nibble. -/
theorem toNat_and_F00F (w : Word) : (w &&& 0xF00F).toNat = w.toNat / 4096 * 4096 + w.toNat % 16 := by
  have hw := w.isLt
  rw [show (0xF00F : Word) = 0xF000 ||| 0x000F by decide, and_split _ _ (by decide), BitVec.toNat_add,
    toNat_and_F000, toNat_and_000F]
  omega

/-- The mask `0xF0FF`: the high nibble in place and the low byte. -/
theorem toNat_and_F0FF (w : Word) : (w &&& 0xF0FF).toNat = w.toNat / 4096 * 4096 + w.toNat % 256 := by
  have hw := w.isLt
  rw [show (0xF0FF : Word) = 0xF000 ||| 0x00FF by decide, and_split _ _ (by decide), BitVec.toNat_add,
    toNat_and_F000, toNat_and_00FF]
  omega

/-- The mask `0xFFFF`: the whole word. -/
theorem and_FFFF (w : Word) : w &&& 0xFFFF = w := by
  rw [show (0xFFFF : Word) = BitVec.allOnes 16 by decide, BitVec.and_allOnes]

/-- A word matches a row when masking it gives the row's pattern, as numbers. -/
theorem matchesRow_iff (w mask pat : Word) :
    matchesRow w (mask, pat) = true ↔ (w &&& mask).toNat = pat.toNat := by
  simp [matchesRow, ← BitVec.toNat_inj]

theorem toNat_wordXNN (op : Nat) (x : Reg) (nn : Nat) (hop : op < 16) (hnn : nn < 256) :
    (wordXNN op x nn).toNat = op * 4096 + x.val * 256 + nn := by
  have := x.isLt
  simp only [wordXNN, BitVec.toNat_ofNat]
  omega

theorem toNat_wordXYN (op : Nat) (x y : Reg) (n : Nat) (hop : op < 16) (hn : n < 16) :
    (wordXYN op x y n).toNat = op * 4096 + x.val * 256 + y.val * 16 + n := by
  have := x.isLt
  have := y.isLt
  simp only [wordXYN, BitVec.toNat_ofNat]
  omega

theorem toNat_wordNNN (op : Nat) (nnn : Addr) (hop : op < 16) :
    (wordNNN op nnn).toNat = op * 4096 + nnn.toNat := by
  have := nnn.isLt
  simp only [wordNNN, BitVec.toNat_ofNat]
  omega

/-- A word of format `XNN` or `X` lies in the row that fixes its high nibble. -/
theorem matches_wordXNN (op : Nat) (x : Reg) (nn : Nat) (hop : op < 16) (hnn : nn < 256) (pat : Word)
    (h : pat.toNat = op * 4096) : matchesRow (wordXNN op x nn) (0xF000, pat) = true := by
  have := x.isLt
  rw [matchesRow_iff, toNat_and_F000, toNat_wordXNN _ _ _ hop hnn, h]
  omega

/-- A word of format `X` lies in the row that fixes its high nibble and its low byte. -/
theorem matches_wordX (op : Nat) (x : Reg) (nn : Nat) (hop : op < 16) (hnn : nn < 256) (pat : Word)
    (h : pat.toNat = op * 4096 + nn) : matchesRow (wordXNN op x nn) (0xF0FF, pat) = true := by
  have := x.isLt
  rw [matchesRow_iff, toNat_and_F0FF, toNat_wordXNN _ _ _ hop hnn, h]
  omega

/-- A word of format `XY` lies in the row that fixes its high nibble and its low nibble. -/
theorem matches_wordXY (op : Nat) (x y : Reg) (n : Nat) (hop : op < 16) (hn : n < 16) (pat : Word)
    (h : pat.toNat = op * 4096 + n) : matchesRow (wordXYN op x y n) (0xF00F, pat) = true := by
  have := x.isLt
  have := y.isLt
  rw [matchesRow_iff, toNat_and_F00F, toNat_wordXYN _ _ _ _ hop hn, h]
  omega

/-- A word of format `XYN` lies in the row that fixes its high nibble. -/
theorem matches_wordXYN (op : Nat) (x y : Reg) (n : Nat) (hop : op < 16) (hn : n < 16) (pat : Word)
    (h : pat.toNat = op * 4096) : matchesRow (wordXYN op x y n) (0xF000, pat) = true := by
  have := x.isLt
  have := y.isLt
  rw [matchesRow_iff, toNat_and_F000, toNat_wordXYN _ _ _ _ hop hn, h]
  omega

/-- A word of format `NNN` lies in the row that fixes its high nibble. -/
theorem matches_wordNNN (op : Nat) (nnn : Addr) (hop : op < 16) (pat : Word)
    (h : pat.toNat = op * 4096) : matchesRow (wordNNN op nnn) (0xF000, pat) = true := by
  have := nnn.isLt
  rw [matchesRow_iff, toNat_and_F000, toNat_wordNNN _ _ hop, h]
  omega

end Sys2Proof
end

