-- ==== Sys2Proof/Laws/Memory.lean ====
section
/-! SUPPORT. The laws of the byte array: reading after writing, and that every operation keeps the
canonical form. -/

namespace Sys2Proof.Machine

theorem Memory.read_erase (m : Memory) (a c : Nat) :
    (m.erase a).read c = if c = a then Memory.unlisted a else m.read c := by
  induction m with
  | nil => by_cases h : c = a <;> simp [Memory.erase, Memory.read, h]
  | cons e rest ih =>
    obtain ⟨k, v⟩ := e
    by_cases hk : k = a
    · subst hk
      by_cases hc : c = k
      · subst hc; simpa [Memory.erase] using ih
      · simp [Memory.erase, Memory.read, ih, hc, Ne.symm hc]
    · by_cases hkc : k = c
      · subst hkc; simp [Memory.erase, Memory.read, hk]
      · simp [Memory.erase, Memory.read, hk, hkc, ih]

theorem Memory.read_place (m : Memory) (a c : Nat) (b : Byte) (h : m.read a = Memory.unlisted a)
    (hfree : ∀ e ∈ m, e.1 ≠ a) :
    (m.place a b).read c = if c = a then b else m.read c := by
  induction m with
  | nil =>
    by_cases hc : a = c
    · subst hc; simp [Memory.place, Memory.read]
    · simp [Memory.place, Memory.read, hc, Ne.symm hc]
  | cons e rest ih =>
    obtain ⟨k, v⟩ := e
    have hka : k ≠ a := hfree (k, v) (by simp)
    have hrest : ∀ e ∈ rest, e.1 ≠ a := fun e he => hfree e (by simp [he])
    have hr : Memory.read rest a = Memory.unlisted a := by simpa [Memory.read, hka] using h
    by_cases hlt : a < k
    · by_cases hc : a = c
      · subst hc; simp [Memory.place, Memory.read, hlt]
      · simp [Memory.place, Memory.read, hlt, hc, Ne.symm hc]
    · by_cases hkc : k = c
      · subst hkc; simp [Memory.place, Memory.read, hlt, hka]
      · simp [Memory.place, Memory.read, hlt, hkc, ih hr hrest]

theorem Memory.erase_free (m : Memory) (a : Nat) : ∀ e ∈ m.erase a, e.1 ≠ a := by
  induction m with
  | nil => simp [Memory.erase]
  | cons e rest ih =>
    obtain ⟨k, v⟩ := e
    by_cases hk : k = a
    · simpa [Memory.erase, hk] using ih
    · simpa [Memory.erase, hk] using ih

/-- Reading after a write to the array: the written address gives the byte, every other what it gave. -/
theorem Memory.read_write (m : Memory) (a c : Nat) (b : Byte) (ha : a < Config.memSize) :
    (m.write a b).read c = if c = a then b else m.read c := by
  by_cases hb : b = Memory.unlisted a
  · simp [Memory.write, ha, hb, Memory.read_erase]
  · rw [Memory.write, if_pos ha, if_neg hb,
      Memory.read_place _ _ _ _ (by simp [Memory.read_erase]) (m.erase_free a)]
    by_cases hc : c = a <;> simp [hc, Memory.read_erase]

theorem Memory.read_write_outside (m : Memory) (a c : Nat) (b : Byte) (hc : c ≠ a) :
    (m.write a b).read c = m.read c := by
  by_cases ha : a < Config.memSize
  · simp [Memory.read_write, ha, hc]
  · simp [Memory.write, ha]

/-- Reading after a block write that lies in the array. -/
theorem Memory.read_writeBytes (bs : List Byte) :
    ∀ (m : Memory) (a c : Nat), a + bs.length ≤ Config.memSize →
      (m.writeBytes a bs).read c = if a ≤ c ∧ c < a + bs.length then bs.getD (c - a) 0 else m.read c := by
  induction bs with
  | nil =>
    intro m a c _
    rw [Memory.writeBytes, if_neg (by simp only [List.length_nil]; omega)]
  | cons b bs ih =>
    intro m a c h
    simp only [List.length_cons] at h
    rw [Memory.writeBytes, ih _ _ _ (by omega), Memory.read_write _ _ _ _ (by omega)]
    by_cases hc : c = a
    · subst hc; simp
    · by_cases hin : a + 1 ≤ c ∧ c < a + 1 + bs.length
      · obtain ⟨d, rfl⟩ : ∃ d, c = a + 1 + d := ⟨c - (a + 1), by omega⟩
        rw [if_pos hin, if_pos (by simp; omega)]
        simp [show a + 1 + d - a = d + 1 by omega]
      · rw [if_neg hin, if_neg hc, if_neg (by simp; omega)]

/-- A block write leaves every byte outside the block alone, wherever the block lies. -/
theorem Memory.read_writeBytes_outside (bs : List Byte) :
    ∀ (m : Memory) (a c : Nat), (c < a ∨ a + bs.length ≤ c) → (m.writeBytes a bs).read c = m.read c := by
  induction bs with
  | nil => intro m a c _; simp [Memory.writeBytes]
  | cons b bs ih =>
    intro m a c h
    simp only [List.length_cons] at h
    rw [Memory.writeBytes, ih _ _ _ (by omega), Memory.read_write_outside _ _ _ _ (by omega)]

theorem Memory.wfFrom_mono (m : Memory) {lo lo' : Nat} (h : lo' ≤ lo) (hm : Memory.wfFrom lo m = true) :
    Memory.wfFrom lo' m = true := by
  cases m with
  | nil => simp [Memory.wfFrom]
  | cons e rest =>
    obtain ⟨k, v⟩ := e
    simp only [Memory.wfFrom, Bool.and_eq_true, decide_eq_true_eq] at hm ⊢
    exact ⟨⟨⟨by omega, hm.1.1.2⟩, hm.1.2⟩, hm.2⟩

theorem Memory.wfFrom_erase (m : Memory) (a : Nat) : ∀ lo, Memory.wfFrom lo m = true →
    Memory.wfFrom lo (m.erase a) = true := by
  induction m with
  | nil => intro lo _; simp [Memory.erase, Memory.wfFrom]
  | cons e rest ih =>
    obtain ⟨k, v⟩ := e
    intro lo h
    simp only [Memory.wfFrom, Bool.and_eq_true, decide_eq_true_eq] at h
    by_cases hk : k = a
    · simpa [Memory.erase, hk] using Memory.wfFrom_mono _ (by omega) (ih _ h.2)
    · simpa [Memory.erase, hk, Memory.wfFrom, ih _ h.2] using h.1

theorem Memory.wfFrom_place (m : Memory) (a : Nat) (b : Byte) (ha : a < Config.memSize)
    (hb : b ≠ Memory.unlisted a) : ∀ lo, lo ≤ a → (∀ e ∈ m, e.1 ≠ a) → Memory.wfFrom lo m = true →
    Memory.wfFrom lo (m.place a b) = true := by
  induction m with
  | nil => intro lo hlo _ _; simp [Memory.place, Memory.wfFrom, ha, hb, hlo]
  | cons e rest ih =>
    obtain ⟨k, v⟩ := e
    intro lo hlo hfree h
    have hka : k ≠ a := hfree (k, v) (by simp)
    simp only [Memory.wfFrom, Bool.and_eq_true, decide_eq_true_eq] at h
    by_cases hlt : a < k
    · simp [Memory.place, hlt, Memory.wfFrom, ha, hb, hlo, h.1.1.2, h.1.2, h.2]
    · have := ih (k + 1) (by omega) (fun e he => hfree e (by simp [he])) h.2
      simp [Memory.place, hlt, Memory.wfFrom, h.1.1.1, h.1.1.2, h.1.2, this]

/-- A write keeps the canonical form. -/
theorem Memory.wf_write (m : Memory) (a : Nat) (b : Byte) (h : m.wf = true) : (m.write a b).wf = true := by
  unfold Memory.wf at *
  unfold Memory.write
  split
  · next ha =>
    split
    · exact Memory.wfFrom_erase _ _ _ h
    · next hb =>
      exact Memory.wfFrom_place _ _ _ ha hb _ (Nat.zero_le _) (m.erase_free a) (Memory.wfFrom_erase _ _ _ h)
  · exact h

/-- A block write keeps the canonical form. -/
theorem Memory.wf_writeBytes (bs : List Byte) : ∀ (m : Memory) (a : Nat), m.wf = true →
    (m.writeBytes a bs).wf = true := by
  induction bs with
  | nil => intro m a h; exact h
  | cons b bs ih => intro m a h; exact ih _ _ (Memory.wf_write _ _ _ h)

/-- The memory of reset, which lists nothing, is in the canonical form. -/
theorem Memory.wf_nil : Memory.wf [] = true := rfl

end Sys2Proof.Machine
end

