-- ==== Sys2Proof/Laws/State.lean ====
section
/-! SUPPORT. What each named update of the state does to each field and to each accessor: true by
definition, so that no later proof unfolds a record update. -/

namespace Sys2Proof.Machine

/-! ### `setReg` -/

@[simp] theorem State.setReg_mem (s : State) (x : Reg) (b : Byte) :
    (s.setReg x b).mem = s.mem := rfl
@[simp] theorem State.setReg_v (s : State) (x : Reg) (b : Byte) :
    (s.setReg x b).v = s.v.set x.val b := rfl
@[simp] theorem State.setReg_index (s : State) (x : Reg) (b : Byte) :
    (s.setReg x b).index = s.index := rfl
@[simp] theorem State.setReg_pc (s : State) (x : Reg) (b : Byte) : (s.setReg x b).pc = s.pc := rfl
@[simp] theorem State.setReg_stack (s : State) (x : Reg) (b : Byte) :
    (s.setReg x b).stack = s.stack := rfl
@[simp] theorem State.setReg_sp (s : State) (x : Reg) (b : Byte) : (s.setReg x b).sp = s.sp := rfl
@[simp] theorem State.setReg_fb (s : State) (x : Reg) (b : Byte) : (s.setReg x b).fb = s.fb := rfl
@[simp] theorem State.setReg_dt (s : State) (x : Reg) (b : Byte) : (s.setReg x b).dt = s.dt := rfl
@[simp] theorem State.setReg_st (s : State) (x : Reg) (b : Byte) : (s.setReg x b).st = s.st := rfl
@[simp] theorem State.setReg_keys (s : State) (x : Reg) (b : Byte) :
    (s.setReg x b).keys = s.keys := rfl
@[simp] theorem State.setReg_wait (s : State) (x : Reg) (b : Byte) :
    (s.setReg x b).wait = s.wait := rfl
@[simp] theorem State.setReg_halt (s : State) (x : Reg) (b : Byte) :
    (s.setReg x b).halt = s.halt := rfl
@[simp] theorem State.setReg_draws (s : State) (x : Reg) (b : Byte) :
    (s.setReg x b).draws = s.draws := rfl
@[simp] theorem State.setReg_slot (s : State) (x : Reg) (b : Byte) (j : Fin 16) :
    (s.setReg x b).slot j = s.slot j := rfl
@[simp] theorem State.setReg_byte (s : State) (x : Reg) (b : Byte) (c : Nat) :
    (s.setReg x b).byte c = s.byte c := rfl
@[simp] theorem State.setReg_pixel (s : State) (x : Reg) (b : Byte) (px : Fin 64) (py : Fin 32) :
    (s.setReg x b).pixel px py = s.pixel px py := rfl
@[simp] theorem State.setReg_key (s : State) (x : Reg) (b : Byte) (j : Fin 16) :
    (s.setReg x b).key j = s.key j := rfl

/-! ### `setIndex` -/

@[simp] theorem State.setIndex_mem (s : State) (a : Word) : (s.setIndex a).mem = s.mem := rfl
@[simp] theorem State.setIndex_v (s : State) (a : Word) : (s.setIndex a).v = s.v := rfl
@[simp] theorem State.setIndex_index (s : State) (a : Word) : (s.setIndex a).index = a := rfl
@[simp] theorem State.setIndex_pc (s : State) (a : Word) : (s.setIndex a).pc = s.pc := rfl
@[simp] theorem State.setIndex_stack (s : State) (a : Word) : (s.setIndex a).stack = s.stack := rfl
@[simp] theorem State.setIndex_sp (s : State) (a : Word) : (s.setIndex a).sp = s.sp := rfl
@[simp] theorem State.setIndex_fb (s : State) (a : Word) : (s.setIndex a).fb = s.fb := rfl
@[simp] theorem State.setIndex_dt (s : State) (a : Word) : (s.setIndex a).dt = s.dt := rfl
@[simp] theorem State.setIndex_st (s : State) (a : Word) : (s.setIndex a).st = s.st := rfl
@[simp] theorem State.setIndex_keys (s : State) (a : Word) : (s.setIndex a).keys = s.keys := rfl
@[simp] theorem State.setIndex_wait (s : State) (a : Word) : (s.setIndex a).wait = s.wait := rfl
@[simp] theorem State.setIndex_halt (s : State) (a : Word) : (s.setIndex a).halt = s.halt := rfl
@[simp] theorem State.setIndex_draws (s : State) (a : Word) : (s.setIndex a).draws = s.draws := rfl
@[simp] theorem State.setIndex_reg (s : State) (a : Word) (r : Reg) :
    (s.setIndex a).reg r = s.reg r := rfl
@[simp] theorem State.setIndex_slot (s : State) (a : Word) (j : Fin 16) :
    (s.setIndex a).slot j = s.slot j := rfl
@[simp] theorem State.setIndex_byte (s : State) (a : Word) (c : Nat) :
    (s.setIndex a).byte c = s.byte c := rfl
@[simp] theorem State.setIndex_pixel (s : State) (a : Word) (px : Fin 64) (py : Fin 32) :
    (s.setIndex a).pixel px py = s.pixel px py := rfl
@[simp] theorem State.setIndex_key (s : State) (a : Word) (j : Fin 16) :
    (s.setIndex a).key j = s.key j := rfl

/-! ### `setDt` -/

@[simp] theorem State.setDt_mem (s : State) (b : Byte) : (s.setDt b).mem = s.mem := rfl
@[simp] theorem State.setDt_v (s : State) (b : Byte) : (s.setDt b).v = s.v := rfl
@[simp] theorem State.setDt_index (s : State) (b : Byte) : (s.setDt b).index = s.index := rfl
@[simp] theorem State.setDt_pc (s : State) (b : Byte) : (s.setDt b).pc = s.pc := rfl
@[simp] theorem State.setDt_stack (s : State) (b : Byte) : (s.setDt b).stack = s.stack := rfl
@[simp] theorem State.setDt_sp (s : State) (b : Byte) : (s.setDt b).sp = s.sp := rfl
@[simp] theorem State.setDt_fb (s : State) (b : Byte) : (s.setDt b).fb = s.fb := rfl
@[simp] theorem State.setDt_dt (s : State) (b : Byte) : (s.setDt b).dt = b := rfl
@[simp] theorem State.setDt_st (s : State) (b : Byte) : (s.setDt b).st = s.st := rfl
@[simp] theorem State.setDt_keys (s : State) (b : Byte) : (s.setDt b).keys = s.keys := rfl
@[simp] theorem State.setDt_wait (s : State) (b : Byte) : (s.setDt b).wait = s.wait := rfl
@[simp] theorem State.setDt_halt (s : State) (b : Byte) : (s.setDt b).halt = s.halt := rfl
@[simp] theorem State.setDt_draws (s : State) (b : Byte) : (s.setDt b).draws = s.draws := rfl
@[simp] theorem State.setDt_reg (s : State) (b : Byte) (r : Reg) :
    (s.setDt b).reg r = s.reg r := rfl
@[simp] theorem State.setDt_slot (s : State) (b : Byte) (j : Fin 16) :
    (s.setDt b).slot j = s.slot j := rfl
@[simp] theorem State.setDt_byte (s : State) (b : Byte) (c : Nat) :
    (s.setDt b).byte c = s.byte c := rfl
@[simp] theorem State.setDt_pixel (s : State) (b : Byte) (px : Fin 64) (py : Fin 32) :
    (s.setDt b).pixel px py = s.pixel px py := rfl
@[simp] theorem State.setDt_key (s : State) (b : Byte) (j : Fin 16) :
    (s.setDt b).key j = s.key j := rfl

/-! ### `setSt` -/

@[simp] theorem State.setSt_mem (s : State) (b : Byte) : (s.setSt b).mem = s.mem := rfl
@[simp] theorem State.setSt_v (s : State) (b : Byte) : (s.setSt b).v = s.v := rfl
@[simp] theorem State.setSt_index (s : State) (b : Byte) : (s.setSt b).index = s.index := rfl
@[simp] theorem State.setSt_pc (s : State) (b : Byte) : (s.setSt b).pc = s.pc := rfl
@[simp] theorem State.setSt_stack (s : State) (b : Byte) : (s.setSt b).stack = s.stack := rfl
@[simp] theorem State.setSt_sp (s : State) (b : Byte) : (s.setSt b).sp = s.sp := rfl
@[simp] theorem State.setSt_fb (s : State) (b : Byte) : (s.setSt b).fb = s.fb := rfl
@[simp] theorem State.setSt_dt (s : State) (b : Byte) : (s.setSt b).dt = s.dt := rfl
@[simp] theorem State.setSt_st (s : State) (b : Byte) : (s.setSt b).st = b := rfl
@[simp] theorem State.setSt_keys (s : State) (b : Byte) : (s.setSt b).keys = s.keys := rfl
@[simp] theorem State.setSt_wait (s : State) (b : Byte) : (s.setSt b).wait = s.wait := rfl
@[simp] theorem State.setSt_halt (s : State) (b : Byte) : (s.setSt b).halt = s.halt := rfl
@[simp] theorem State.setSt_draws (s : State) (b : Byte) : (s.setSt b).draws = s.draws := rfl
@[simp] theorem State.setSt_reg (s : State) (b : Byte) (r : Reg) :
    (s.setSt b).reg r = s.reg r := rfl
@[simp] theorem State.setSt_slot (s : State) (b : Byte) (j : Fin 16) :
    (s.setSt b).slot j = s.slot j := rfl
@[simp] theorem State.setSt_byte (s : State) (b : Byte) (c : Nat) :
    (s.setSt b).byte c = s.byte c := rfl
@[simp] theorem State.setSt_pixel (s : State) (b : Byte) (px : Fin 64) (py : Fin 32) :
    (s.setSt b).pixel px py = s.pixel px py := rfl
@[simp] theorem State.setSt_key (s : State) (b : Byte) (j : Fin 16) :
    (s.setSt b).key j = s.key j := rfl

/-! ### `advance` -/

@[simp] theorem State.advance_mem (s : State) : s.advance.mem = s.mem := rfl
@[simp] theorem State.advance_v (s : State) : s.advance.v = s.v := rfl
@[simp] theorem State.advance_index (s : State) : s.advance.index = s.index := rfl
@[simp] theorem State.advance_pc (s : State) : s.advance.pc = s.pc + 2 := rfl
@[simp] theorem State.advance_stack (s : State) : s.advance.stack = s.stack := rfl
@[simp] theorem State.advance_sp (s : State) : s.advance.sp = s.sp := rfl
@[simp] theorem State.advance_fb (s : State) : s.advance.fb = s.fb := rfl
@[simp] theorem State.advance_dt (s : State) : s.advance.dt = s.dt := rfl
@[simp] theorem State.advance_st (s : State) : s.advance.st = s.st := rfl
@[simp] theorem State.advance_keys (s : State) : s.advance.keys = s.keys := rfl
@[simp] theorem State.advance_wait (s : State) : s.advance.wait = s.wait := rfl
@[simp] theorem State.advance_halt (s : State) : s.advance.halt = s.halt := rfl
@[simp] theorem State.advance_draws (s : State) : s.advance.draws = s.draws := rfl
@[simp] theorem State.advance_reg (s : State) (r : Reg) : s.advance.reg r = s.reg r := rfl
@[simp] theorem State.advance_slot (s : State) (j : Fin 16) : s.advance.slot j = s.slot j := rfl
@[simp] theorem State.advance_byte (s : State) (c : Nat) : s.advance.byte c = s.byte c := rfl
@[simp] theorem State.advance_pixel (s : State) (px : Fin 64) (py : Fin 32) :
    s.advance.pixel px py = s.pixel px py := rfl
@[simp] theorem State.advance_key (s : State) (j : Fin 16) : s.advance.key j = s.key j := rfl

/-! ### `jump` -/

@[simp] theorem State.jump_mem (s : State) (a : Word) : (s.jump a).mem = s.mem := rfl
@[simp] theorem State.jump_v (s : State) (a : Word) : (s.jump a).v = s.v := rfl
@[simp] theorem State.jump_index (s : State) (a : Word) : (s.jump a).index = s.index := rfl
@[simp] theorem State.jump_pc (s : State) (a : Word) : (s.jump a).pc = a := rfl
@[simp] theorem State.jump_stack (s : State) (a : Word) : (s.jump a).stack = s.stack := rfl
@[simp] theorem State.jump_sp (s : State) (a : Word) : (s.jump a).sp = s.sp := rfl
@[simp] theorem State.jump_fb (s : State) (a : Word) : (s.jump a).fb = s.fb := rfl
@[simp] theorem State.jump_dt (s : State) (a : Word) : (s.jump a).dt = s.dt := rfl
@[simp] theorem State.jump_st (s : State) (a : Word) : (s.jump a).st = s.st := rfl
@[simp] theorem State.jump_keys (s : State) (a : Word) : (s.jump a).keys = s.keys := rfl
@[simp] theorem State.jump_wait (s : State) (a : Word) : (s.jump a).wait = s.wait := rfl
@[simp] theorem State.jump_halt (s : State) (a : Word) : (s.jump a).halt = s.halt := rfl
@[simp] theorem State.jump_draws (s : State) (a : Word) : (s.jump a).draws = s.draws := rfl
@[simp] theorem State.jump_reg (s : State) (a : Word) (r : Reg) : (s.jump a).reg r = s.reg r := rfl
@[simp] theorem State.jump_slot (s : State) (a : Word) (j : Fin 16) :
    (s.jump a).slot j = s.slot j := rfl
@[simp] theorem State.jump_byte (s : State) (a : Word) (c : Nat) :
    (s.jump a).byte c = s.byte c := rfl
@[simp] theorem State.jump_pixel (s : State) (a : Word) (px : Fin 64) (py : Fin 32) :
    (s.jump a).pixel px py = s.pixel px py := rfl
@[simp] theorem State.jump_key (s : State) (a : Word) (j : Fin 16) :
    (s.jump a).key j = s.key j := rfl

/-! ### `push` -/

@[simp] theorem State.push_mem (s : State) (a : Word) : (s.push a).mem = s.mem := rfl
@[simp] theorem State.push_v (s : State) (a : Word) : (s.push a).v = s.v := rfl
@[simp] theorem State.push_index (s : State) (a : Word) : (s.push a).index = s.index := rfl
@[simp] theorem State.push_pc (s : State) (a : Word) : (s.push a).pc = s.pc := rfl
@[simp] theorem State.push_stack (s : State) (a : Word) :
    (s.push a).stack = s.stack.set (Fin.ofNat 16 s.sp.val).val a := rfl
@[simp] theorem State.push_sp (s : State) (a : Word) :
    (s.push a).sp = Fin.ofNat 17 (s.sp.val + 1) := rfl
@[simp] theorem State.push_fb (s : State) (a : Word) : (s.push a).fb = s.fb := rfl
@[simp] theorem State.push_dt (s : State) (a : Word) : (s.push a).dt = s.dt := rfl
@[simp] theorem State.push_st (s : State) (a : Word) : (s.push a).st = s.st := rfl
@[simp] theorem State.push_keys (s : State) (a : Word) : (s.push a).keys = s.keys := rfl
@[simp] theorem State.push_wait (s : State) (a : Word) : (s.push a).wait = s.wait := rfl
@[simp] theorem State.push_halt (s : State) (a : Word) : (s.push a).halt = s.halt := rfl
@[simp] theorem State.push_draws (s : State) (a : Word) : (s.push a).draws = s.draws := rfl
@[simp] theorem State.push_reg (s : State) (a : Word) (r : Reg) : (s.push a).reg r = s.reg r := rfl
@[simp] theorem State.push_byte (s : State) (a : Word) (c : Nat) :
    (s.push a).byte c = s.byte c := rfl
@[simp] theorem State.push_pixel (s : State) (a : Word) (px : Fin 64) (py : Fin 32) :
    (s.push a).pixel px py = s.pixel px py := rfl
@[simp] theorem State.push_key (s : State) (a : Word) (j : Fin 16) :
    (s.push a).key j = s.key j := rfl

/-! ### `drop` -/

@[simp] theorem State.drop_mem (s : State) : s.drop.mem = s.mem := rfl
@[simp] theorem State.drop_v (s : State) : s.drop.v = s.v := rfl
@[simp] theorem State.drop_index (s : State) : s.drop.index = s.index := rfl
@[simp] theorem State.drop_pc (s : State) : s.drop.pc = s.pc := rfl
@[simp] theorem State.drop_stack (s : State) : s.drop.stack = s.stack := rfl
@[simp] theorem State.drop_sp (s : State) : s.drop.sp = Fin.ofNat 17 (s.sp.val - 1) := rfl
@[simp] theorem State.drop_fb (s : State) : s.drop.fb = s.fb := rfl
@[simp] theorem State.drop_dt (s : State) : s.drop.dt = s.dt := rfl
@[simp] theorem State.drop_st (s : State) : s.drop.st = s.st := rfl
@[simp] theorem State.drop_keys (s : State) : s.drop.keys = s.keys := rfl
@[simp] theorem State.drop_wait (s : State) : s.drop.wait = s.wait := rfl
@[simp] theorem State.drop_halt (s : State) : s.drop.halt = s.halt := rfl
@[simp] theorem State.drop_draws (s : State) : s.drop.draws = s.draws := rfl
@[simp] theorem State.drop_reg (s : State) (r : Reg) : s.drop.reg r = s.reg r := rfl
@[simp] theorem State.drop_slot (s : State) (j : Fin 16) : s.drop.slot j = s.slot j := rfl
@[simp] theorem State.drop_byte (s : State) (c : Nat) : s.drop.byte c = s.byte c := rfl
@[simp] theorem State.drop_pixel (s : State) (px : Fin 64) (py : Fin 32) :
    s.drop.pixel px py = s.pixel px py := rfl
@[simp] theorem State.drop_key (s : State) (j : Fin 16) : s.drop.key j = s.key j := rfl

/-! ### `storeBytes` -/

@[simp] theorem State.storeBytes_mem (s : State) (a : Nat) (bs : List Byte) :
    (s.storeBytes a bs).mem = s.mem.writeBytes a bs := rfl
@[simp] theorem State.storeBytes_v (s : State) (a : Nat) (bs : List Byte) :
    (s.storeBytes a bs).v = s.v := rfl
@[simp] theorem State.storeBytes_index (s : State) (a : Nat) (bs : List Byte) :
    (s.storeBytes a bs).index = s.index := rfl
@[simp] theorem State.storeBytes_pc (s : State) (a : Nat) (bs : List Byte) :
    (s.storeBytes a bs).pc = s.pc := rfl
@[simp] theorem State.storeBytes_stack (s : State) (a : Nat) (bs : List Byte) :
    (s.storeBytes a bs).stack = s.stack := rfl
@[simp] theorem State.storeBytes_sp (s : State) (a : Nat) (bs : List Byte) :
    (s.storeBytes a bs).sp = s.sp := rfl
@[simp] theorem State.storeBytes_fb (s : State) (a : Nat) (bs : List Byte) :
    (s.storeBytes a bs).fb = s.fb := rfl
@[simp] theorem State.storeBytes_dt (s : State) (a : Nat) (bs : List Byte) :
    (s.storeBytes a bs).dt = s.dt := rfl
@[simp] theorem State.storeBytes_st (s : State) (a : Nat) (bs : List Byte) :
    (s.storeBytes a bs).st = s.st := rfl
@[simp] theorem State.storeBytes_keys (s : State) (a : Nat) (bs : List Byte) :
    (s.storeBytes a bs).keys = s.keys := rfl
@[simp] theorem State.storeBytes_wait (s : State) (a : Nat) (bs : List Byte) :
    (s.storeBytes a bs).wait = s.wait := rfl
@[simp] theorem State.storeBytes_halt (s : State) (a : Nat) (bs : List Byte) :
    (s.storeBytes a bs).halt = s.halt := rfl
@[simp] theorem State.storeBytes_draws (s : State) (a : Nat) (bs : List Byte) :
    (s.storeBytes a bs).draws = s.draws := rfl
@[simp] theorem State.storeBytes_reg (s : State) (a : Nat) (bs : List Byte) (r : Reg) :
    (s.storeBytes a bs).reg r = s.reg r := rfl
@[simp] theorem State.storeBytes_slot (s : State) (a : Nat) (bs : List Byte) (j : Fin 16) :
    (s.storeBytes a bs).slot j = s.slot j := rfl
@[simp] theorem State.storeBytes_pixel (s : State) (a : Nat) (bs : List Byte) (px : Fin 64) (py : Fin 32) :
    (s.storeBytes a bs).pixel px py = s.pixel px py := rfl
@[simp] theorem State.storeBytes_key (s : State) (a : Nat) (bs : List Byte) (j : Fin 16) :
    (s.storeBytes a bs).key j = s.key j := rfl

/-! ### `setFb` -/

@[simp] theorem State.setFb_mem (s : State) (f : Framebuffer) : (s.setFb f).mem = s.mem := rfl
@[simp] theorem State.setFb_v (s : State) (f : Framebuffer) : (s.setFb f).v = s.v := rfl
@[simp] theorem State.setFb_index (s : State) (f : Framebuffer) :
    (s.setFb f).index = s.index := rfl
@[simp] theorem State.setFb_pc (s : State) (f : Framebuffer) : (s.setFb f).pc = s.pc := rfl
@[simp] theorem State.setFb_stack (s : State) (f : Framebuffer) :
    (s.setFb f).stack = s.stack := rfl
@[simp] theorem State.setFb_sp (s : State) (f : Framebuffer) : (s.setFb f).sp = s.sp := rfl
@[simp] theorem State.setFb_fb (s : State) (f : Framebuffer) : (s.setFb f).fb = f := rfl
@[simp] theorem State.setFb_dt (s : State) (f : Framebuffer) : (s.setFb f).dt = s.dt := rfl
@[simp] theorem State.setFb_st (s : State) (f : Framebuffer) : (s.setFb f).st = s.st := rfl
@[simp] theorem State.setFb_keys (s : State) (f : Framebuffer) : (s.setFb f).keys = s.keys := rfl
@[simp] theorem State.setFb_wait (s : State) (f : Framebuffer) : (s.setFb f).wait = s.wait := rfl
@[simp] theorem State.setFb_halt (s : State) (f : Framebuffer) : (s.setFb f).halt = s.halt := rfl
@[simp] theorem State.setFb_draws (s : State) (f : Framebuffer) :
    (s.setFb f).draws = s.draws := rfl
@[simp] theorem State.setFb_reg (s : State) (f : Framebuffer) (r : Reg) :
    (s.setFb f).reg r = s.reg r := rfl
@[simp] theorem State.setFb_slot (s : State) (f : Framebuffer) (j : Fin 16) :
    (s.setFb f).slot j = s.slot j := rfl
@[simp] theorem State.setFb_byte (s : State) (f : Framebuffer) (c : Nat) :
    (s.setFb f).byte c = s.byte c := rfl
@[simp] theorem State.setFb_key (s : State) (f : Framebuffer) (j : Fin 16) :
    (s.setFb f).key j = s.key j := rfl

/-! ### `setWait` -/

@[simp] theorem State.setWait_mem (s : State) (w : Option Reg) : (s.setWait w).mem = s.mem := rfl
@[simp] theorem State.setWait_v (s : State) (w : Option Reg) : (s.setWait w).v = s.v := rfl
@[simp] theorem State.setWait_index (s : State) (w : Option Reg) :
    (s.setWait w).index = s.index := rfl
@[simp] theorem State.setWait_pc (s : State) (w : Option Reg) : (s.setWait w).pc = s.pc := rfl
@[simp] theorem State.setWait_stack (s : State) (w : Option Reg) :
    (s.setWait w).stack = s.stack := rfl
@[simp] theorem State.setWait_sp (s : State) (w : Option Reg) : (s.setWait w).sp = s.sp := rfl
@[simp] theorem State.setWait_fb (s : State) (w : Option Reg) : (s.setWait w).fb = s.fb := rfl
@[simp] theorem State.setWait_dt (s : State) (w : Option Reg) : (s.setWait w).dt = s.dt := rfl
@[simp] theorem State.setWait_st (s : State) (w : Option Reg) : (s.setWait w).st = s.st := rfl
@[simp] theorem State.setWait_keys (s : State) (w : Option Reg) :
    (s.setWait w).keys = s.keys := rfl
@[simp] theorem State.setWait_wait (s : State) (w : Option Reg) : (s.setWait w).wait = w := rfl
@[simp] theorem State.setWait_halt (s : State) (w : Option Reg) :
    (s.setWait w).halt = s.halt := rfl
@[simp] theorem State.setWait_draws (s : State) (w : Option Reg) :
    (s.setWait w).draws = s.draws := rfl
@[simp] theorem State.setWait_reg (s : State) (w : Option Reg) (r : Reg) :
    (s.setWait w).reg r = s.reg r := rfl
@[simp] theorem State.setWait_slot (s : State) (w : Option Reg) (j : Fin 16) :
    (s.setWait w).slot j = s.slot j := rfl
@[simp] theorem State.setWait_byte (s : State) (w : Option Reg) (c : Nat) :
    (s.setWait w).byte c = s.byte c := rfl
@[simp] theorem State.setWait_pixel (s : State) (w : Option Reg) (px : Fin 64) (py : Fin 32) :
    (s.setWait w).pixel px py = s.pixel px py := rfl
@[simp] theorem State.setWait_key (s : State) (w : Option Reg) (j : Fin 16) :
    (s.setWait w).key j = s.key j := rfl

/-! ### `drawn` -/

@[simp] theorem State.drawn_mem (s : State) : s.drawn.mem = s.mem := rfl
@[simp] theorem State.drawn_v (s : State) : s.drawn.v = s.v := rfl
@[simp] theorem State.drawn_index (s : State) : s.drawn.index = s.index := rfl
@[simp] theorem State.drawn_pc (s : State) : s.drawn.pc = s.pc := rfl
@[simp] theorem State.drawn_stack (s : State) : s.drawn.stack = s.stack := rfl
@[simp] theorem State.drawn_sp (s : State) : s.drawn.sp = s.sp := rfl
@[simp] theorem State.drawn_fb (s : State) : s.drawn.fb = s.fb := rfl
@[simp] theorem State.drawn_dt (s : State) : s.drawn.dt = s.dt := rfl
@[simp] theorem State.drawn_st (s : State) : s.drawn.st = s.st := rfl
@[simp] theorem State.drawn_keys (s : State) : s.drawn.keys = s.keys := rfl
@[simp] theorem State.drawn_wait (s : State) : s.drawn.wait = s.wait := rfl
@[simp] theorem State.drawn_halt (s : State) : s.drawn.halt = s.halt := rfl
@[simp] theorem State.drawn_draws (s : State) : s.drawn.draws = s.draws + 1 := rfl
@[simp] theorem State.drawn_reg (s : State) (r : Reg) : s.drawn.reg r = s.reg r := rfl
@[simp] theorem State.drawn_slot (s : State) (j : Fin 16) : s.drawn.slot j = s.slot j := rfl
@[simp] theorem State.drawn_byte (s : State) (c : Nat) : s.drawn.byte c = s.byte c := rfl
@[simp] theorem State.drawn_pixel (s : State) (px : Fin 64) (py : Fin 32) :
    s.drawn.pixel px py = s.pixel px py := rfl
@[simp] theorem State.drawn_key (s : State) (j : Fin 16) : s.drawn.key j = s.key j := rfl

/-! ### `halted` -/

@[simp] theorem State.halted_mem (s : State) (e : FatalError) : (s.halted e).mem = s.mem := rfl
@[simp] theorem State.halted_v (s : State) (e : FatalError) : (s.halted e).v = s.v := rfl
@[simp] theorem State.halted_index (s : State) (e : FatalError) :
    (s.halted e).index = s.index := rfl
@[simp] theorem State.halted_pc (s : State) (e : FatalError) : (s.halted e).pc = s.pc := rfl
@[simp] theorem State.halted_stack (s : State) (e : FatalError) :
    (s.halted e).stack = s.stack := rfl
@[simp] theorem State.halted_sp (s : State) (e : FatalError) : (s.halted e).sp = s.sp := rfl
@[simp] theorem State.halted_fb (s : State) (e : FatalError) : (s.halted e).fb = s.fb := rfl
@[simp] theorem State.halted_dt (s : State) (e : FatalError) : (s.halted e).dt = s.dt := rfl
@[simp] theorem State.halted_st (s : State) (e : FatalError) : (s.halted e).st = s.st := rfl
@[simp] theorem State.halted_keys (s : State) (e : FatalError) : (s.halted e).keys = s.keys := rfl
@[simp] theorem State.halted_wait (s : State) (e : FatalError) : (s.halted e).wait = s.wait := rfl
@[simp] theorem State.halted_halt (s : State) (e : FatalError) : (s.halted e).halt = some e := rfl
@[simp] theorem State.halted_draws (s : State) (e : FatalError) :
    (s.halted e).draws = s.draws := rfl
@[simp] theorem State.halted_reg (s : State) (e : FatalError) (r : Reg) :
    (s.halted e).reg r = s.reg r := rfl
@[simp] theorem State.halted_slot (s : State) (e : FatalError) (j : Fin 16) :
    (s.halted e).slot j = s.slot j := rfl
@[simp] theorem State.halted_byte (s : State) (e : FatalError) (c : Nat) :
    (s.halted e).byte c = s.byte c := rfl
@[simp] theorem State.halted_pixel (s : State) (e : FatalError) (px : Fin 64) (py : Fin 32) :
    (s.halted e).pixel px py = s.pixel px py := rfl
@[simp] theorem State.halted_key (s : State) (e : FatalError) (j : Fin 16) :
    (s.halted e).key j = s.key j := rfl

/-! ### `loadRegBlock` -/

@[simp] theorem State.loadRegBlock_mem (s : State) (x : Reg) (a : Nat) :
    (s.loadRegBlock x a).mem = s.mem := rfl
@[simp] theorem State.loadRegBlock_v (s : State) (x : Reg) (a : Nat) :
    (s.loadRegBlock x a).v = loadBlock s.mem a (x.val + 1) s.v := rfl
@[simp] theorem State.loadRegBlock_index (s : State) (x : Reg) (a : Nat) :
    (s.loadRegBlock x a).index = s.index := rfl
@[simp] theorem State.loadRegBlock_pc (s : State) (x : Reg) (a : Nat) :
    (s.loadRegBlock x a).pc = s.pc := rfl
@[simp] theorem State.loadRegBlock_stack (s : State) (x : Reg) (a : Nat) :
    (s.loadRegBlock x a).stack = s.stack := rfl
@[simp] theorem State.loadRegBlock_sp (s : State) (x : Reg) (a : Nat) :
    (s.loadRegBlock x a).sp = s.sp := rfl
@[simp] theorem State.loadRegBlock_fb (s : State) (x : Reg) (a : Nat) :
    (s.loadRegBlock x a).fb = s.fb := rfl
@[simp] theorem State.loadRegBlock_dt (s : State) (x : Reg) (a : Nat) :
    (s.loadRegBlock x a).dt = s.dt := rfl
@[simp] theorem State.loadRegBlock_st (s : State) (x : Reg) (a : Nat) :
    (s.loadRegBlock x a).st = s.st := rfl
@[simp] theorem State.loadRegBlock_keys (s : State) (x : Reg) (a : Nat) :
    (s.loadRegBlock x a).keys = s.keys := rfl
@[simp] theorem State.loadRegBlock_wait (s : State) (x : Reg) (a : Nat) :
    (s.loadRegBlock x a).wait = s.wait := rfl
@[simp] theorem State.loadRegBlock_halt (s : State) (x : Reg) (a : Nat) :
    (s.loadRegBlock x a).halt = s.halt := rfl
@[simp] theorem State.loadRegBlock_draws (s : State) (x : Reg) (a : Nat) :
    (s.loadRegBlock x a).draws = s.draws := rfl
@[simp] theorem State.loadRegBlock_slot (s : State) (x : Reg) (a : Nat) (j : Fin 16) :
    (s.loadRegBlock x a).slot j = s.slot j := rfl
@[simp] theorem State.loadRegBlock_byte (s : State) (x : Reg) (a : Nat) (c : Nat) :
    (s.loadRegBlock x a).byte c = s.byte c := rfl
@[simp] theorem State.loadRegBlock_pixel (s : State) (x : Reg) (a : Nat) (px : Fin 64) (py : Fin 32) :
    (s.loadRegBlock x a).pixel px py = s.pixel px py := rfl
@[simp] theorem State.loadRegBlock_key (s : State) (x : Reg) (a : Nat) (j : Fin 16) :
    (s.loadRegBlock x a).key j = s.key j := rfl

/-! ### `setKeyBit` -/

@[simp] theorem State.setKeyBit_mem (s : State) (k : Fin 16) (p : Bool) :
    (s.setKeyBit k p).mem = s.mem := rfl
@[simp] theorem State.setKeyBit_v (s : State) (k : Fin 16) (p : Bool) :
    (s.setKeyBit k p).v = s.v := rfl
@[simp] theorem State.setKeyBit_index (s : State) (k : Fin 16) (p : Bool) :
    (s.setKeyBit k p).index = s.index := rfl
@[simp] theorem State.setKeyBit_pc (s : State) (k : Fin 16) (p : Bool) :
    (s.setKeyBit k p).pc = s.pc := rfl
@[simp] theorem State.setKeyBit_stack (s : State) (k : Fin 16) (p : Bool) :
    (s.setKeyBit k p).stack = s.stack := rfl
@[simp] theorem State.setKeyBit_sp (s : State) (k : Fin 16) (p : Bool) :
    (s.setKeyBit k p).sp = s.sp := rfl
@[simp] theorem State.setKeyBit_fb (s : State) (k : Fin 16) (p : Bool) :
    (s.setKeyBit k p).fb = s.fb := rfl
@[simp] theorem State.setKeyBit_dt (s : State) (k : Fin 16) (p : Bool) :
    (s.setKeyBit k p).dt = s.dt := rfl
@[simp] theorem State.setKeyBit_st (s : State) (k : Fin 16) (p : Bool) :
    (s.setKeyBit k p).st = s.st := rfl
@[simp] theorem State.setKeyBit_keys (s : State) (k : Fin 16) (p : Bool) :
    (s.setKeyBit k p).keys = s.keys.set k.val p := rfl
@[simp] theorem State.setKeyBit_wait (s : State) (k : Fin 16) (p : Bool) :
    (s.setKeyBit k p).wait = s.wait := rfl
@[simp] theorem State.setKeyBit_halt (s : State) (k : Fin 16) (p : Bool) :
    (s.setKeyBit k p).halt = s.halt := rfl
@[simp] theorem State.setKeyBit_draws (s : State) (k : Fin 16) (p : Bool) :
    (s.setKeyBit k p).draws = s.draws := rfl
@[simp] theorem State.setKeyBit_reg (s : State) (k : Fin 16) (p : Bool) (r : Reg) :
    (s.setKeyBit k p).reg r = s.reg r := rfl
@[simp] theorem State.setKeyBit_slot (s : State) (k : Fin 16) (p : Bool) (j : Fin 16) :
    (s.setKeyBit k p).slot j = s.slot j := rfl
@[simp] theorem State.setKeyBit_byte (s : State) (k : Fin 16) (p : Bool) (c : Nat) :
    (s.setKeyBit k p).byte c = s.byte c := rfl
@[simp] theorem State.setKeyBit_pixel (s : State) (k : Fin 16) (p : Bool) (px : Fin 64) (py : Fin 32) :
    (s.setKeyBit k p).pixel px py = s.pixel px py := rfl

end Sys2Proof.Machine
end

