-- ==== Sys2Proof/Laws/Ops.lean ====
section
/-! SUPPORT. One lemma per shared operation that says what it can do, and what each accessor reads after an
update of the component it reads. -/

namespace Sys2Proof.Machine

/-! ### Registers -/

/-- Reading a register after writing one. -/
@[simp] theorem State.reg_setReg (s : State) (x r : Reg) (b : Byte) :
    (s.setReg x b).reg r = if r = x then b else s.reg r := by
  simp only [State.reg, State.setReg_v, Vector.getElem_set]
  by_cases h : x = r
  · simp [h]
  · have h' : x.val ≠ r.val := fun e => h (Fin.ext e)
    simp [h', Ne.symm h]

/-- Reading a register after a flag-producing instruction's two writes (R15): VF is the flag, whatever `x` is. -/
@[simp] theorem State.reg_resultThenFlag (s : State) (x r : Reg) (b : Byte) (f : Bool) :
    (s.resultThenFlag x b f).reg r = if r = vf then flagByte f else if r = x then b else s.reg r := by
  simp [State.resultThenFlag, State.setFlag]

/-- The flag byte is 1 or 0. -/
theorem flagByte_toNat (f : Bool) : (flagByte f).toNat = if f then 1 else 0 := by cases f <;> rfl

/-- A skip changes `pc` only, and that by 2 when the condition holds. -/
theorem State.skipIf_eq (s : State) (c : Bool) :
    s.skipIf c = { s with pc := if c then s.pc + 2 else s.pc } := by cases c <;> rfl

/-! ### Call stack -/

/-- The slots after a push below capacity: the one at `SP` holds the value, the others are as before. -/
theorem State.slot_push (s : State) (a : Word) (k : Fin 16) (h : s.sp.val < 16) :
    (s.push a).slot k = if k.val = s.sp.val then a else s.slot k := by
  simp only [State.slot, State.push_stack, Vector.getElem_set, Fin.ofNat, Nat.mod_eq_of_lt h]
  by_cases hk : k.val = s.sp.val
  · simp [hk]
  · simp [hk, Ne.symm hk]

/-- `SP` after a push below capacity. -/
theorem State.sp_push (s : State) (a : Word) (h : s.sp.val < 16) : (s.push a).sp.val = s.sp.val + 1 := by
  simp only [State.push_sp, Fin.ofNat]; omega

/-- `SP` after a pop of a stack that is not empty. -/
theorem State.sp_drop (s : State) (h : 0 < s.sp.val) : s.drop.sp.val = s.sp.val - 1 := by
  simp only [State.drop_sp, Fin.ofNat]; omega

/-- What a pop returns: the slot below `SP`. -/
theorem State.top_eq (s : State) (k : Fin 16) (h : s.sp.val = k.val + 1) : s.top = s.slot k := by
  have : Fin.ofNat 16 (s.sp.val - 1) = k := by
    apply Fin.ext; simp only [Fin.ofNat]; omega
  rw [State.top, this]

theorem State.pushCheck_none (s : State) : s.pushCheck = none ↔ s.sp.val < 16 := by
  unfold State.pushCheck Config.stackCap; split <;> simp <;> omega

theorem State.popCheck_none (s : State) : s.popCheck = none ↔ 0 < s.sp.val := by
  unfold State.popCheck; split <;> simp <;> omega

/-! ### Memory -/

/-- Reading a byte after a store that lies in the array. -/
theorem State.byte_storeBytes (s : State) (a c : Nat) (bs : List Byte) (h : a + bs.length ≤ 4096) :
    (s.storeBytes a bs).byte c = if a ≤ c ∧ c < a + bs.length then bs.getD (c - a) 0 else s.byte c :=
  Memory.read_writeBytes bs s.mem a c h

/-- A store leaves every byte outside it alone, wherever it lies. -/
theorem State.byte_storeBytes_outside (s : State) (a c : Nat) (bs : List Byte)
    (h : c < a ∨ a + bs.length ≤ c) : (s.storeBytes a bs).byte c = s.byte c :=
  Memory.read_writeBytes_outside bs s.mem a c h

theorem memoryCheck_none (last : Nat) : memoryCheck last = none ↔ last ≤ 4095 := by
  unfold memoryCheck; split <;> simp <;> omega

/-- The bytes after a word is split are the word's, and joined again they are the word (R41). -/
theorem wordOfBytes_split (w : Word) : wordOfBytes (highByte w) (lowByte w) = w := by
  apply BitVec.eq_of_toNat_eq
  have := w.isLt
  simp [wordOfBytes, highByte, lowByte]
  omega

/-! ### Keys -/

/-- The least pressed key (R98): it is pressed and no lower one is. -/
theorem State.pressed_some (s : State) (k : Fin 16) :
    s.pressed = some k ↔ s.key k = true ∧ ∀ j < k, s.key j = false := by
  unfold State.pressed
  rw [List.find?_eq_some_iff_getElem]
  constructor
  · rintro ⟨hk, i, hi, hik, hlt⟩
    refine ⟨hk, fun j hj => ?_⟩
    have hjk : j.val < i := by
      have : k.val = i := by rw [← hik]; simp
      omega
    simpa using hlt j.val hjk
  · rintro ⟨hk, hlt⟩
    exact ⟨hk, k.val, by simp, by simp, fun j hj => by simpa using hlt ⟨j, by omega⟩ (by simpa [Fin.lt_def] using hj)⟩

/-- No key is pressed (R98). -/
theorem State.pressed_none (s : State) : s.pressed = none ↔ ∀ k, s.key k = false := by
  simp [State.pressed]

/-- The latch after one key bit is written. -/
theorem State.key_setKeyBit (s : State) (k j : Fin 16) (p : Bool) :
    (s.setKeyBit k p).key j = if j = k then p else s.key j := by
  simp only [State.key, State.setKeyBit_keys, Vector.getElem_set]
  by_cases h : k = j
  · simp [h]
  · have h' : k.val ≠ j.val := fun e => h (Fin.ext e)
    simp [h', Ne.symm h]

theorem keyByte_toNat (k : Fin 16) : (keyByte k).toNat = k.val := by
  simp [keyByte]; omega

theorem keyCheck_none (b : Byte) : keyCheck b = none ↔ b.toNat ≤ 15 := by
  unfold keyCheck; split <;> simp <;> omega

theorem glyphCheck_none (b : Byte) : glyphCheck b = none ↔ b.toNat ≤ 15 := by
  unfold glyphCheck; split <;> simp <;> omega

/-! ### Raising and ending -/

@[simp] theorem checked_none (s t : State) : checked none s t = .next t := rfl

@[simp] theorem checked_some (e : FatalError) (s t : State) : checked (some e) s t = .next (s.halted e) := rfl

/-- Everything an instruction that checks before it writes can do (R114, R117): its whole effect, or
nothing but `HALT`. -/
theorem checked_cases {c : Option FatalError} {s d t : State} (h : checked c s d = .next t) :
    (c = none ∧ t = d) ∨ ∃ e, c = some e ∧ t = s.halted e := by
  cases c with
  | none => exact .inl ⟨rfl, by simpa using h.symm⟩
  | some e => exact .inr ⟨e, rfl, by simpa using h.symm⟩

/-- Everything a Blocked tick can do (R99). -/
theorem blockedTick_cases {x : Reg} {s t : State} (h : blockedTick x s = .next t) :
    (s.pressed = none ∧ t = s) ∨
      ∃ k, s.pressed = some k ∧ t = (s.advance.setReg x (keyByte k)).setWait none := by
  unfold blockedTick at h
  split at h
  · next k hk => exact .inr ⟨k, hk, by simpa using h.symm⟩
  · next hk => exact .inl ⟨hk, by simpa using h.symm⟩

/-- What a fetch reads, in range (R41, R44). -/
theorem fetch_ok (s : State) (h : s.pc.toNat ≤ 4094) :
    fetch s = .ok s.opcode := by
  have : memoryCheck (s.pc.toNat + 1) = none := (memoryCheck_none _).2 (by omega)
  simp [fetch, this]

/-- A fetch out of range (R44, R113). -/
theorem fetch_error (s : State) (h : 4094 < s.pc.toNat) :
    fetch s = .error (.outOfRange .memory (s.pc.toNat + 1)) := by
  have : memoryCheck (s.pc.toNat + 1) = some (.outOfRange .memory (s.pc.toNat + 1)) := by
    unfold memoryCheck; rw [if_pos (by omega)]
  simp [fetch, this]

/-! ### Register blocks -/

/-- The bytes `Fx55` stores: as many as it has registers, each register's in its place (R107). -/
theorem State.regBlock_length (s : State) (x : Reg) : (s.regBlock x).length = x.val + 1 := by
  simp [State.regBlock]

theorem State.regBlock_getD (s : State) (x r : Reg) (h : r.val ≤ x.val) :
    (s.regBlock x).getD r.val 0 = s.reg r := by
  simp [State.regBlock, State.reg, List.getD, Nat.lt_succ_of_le h]

/-- The registers after a block load: those below `k` hold the bytes from `a` upward, the others are as
before (R108). -/
theorem loadBlock_getElem (m : Memory) (a : Nat) (v : Vector Byte 16) (r : Reg) :
    ∀ k, (loadBlock m a k v)[r.val] = if r.val < k then m.read (a + r.val) else v[r.val] := by
  intro k
  induction k with
  | zero => simp [loadBlock]
  | succ k ih =>
    simp only [loadBlock, Vector.getElem_setIfInBounds]
    by_cases h : k = r.val
    · simp [h]
    · rw [if_neg h, ih]
      by_cases h2 : r.val < k
      · rw [if_pos h2, if_pos (by omega)]
      · rw [if_neg h2, if_neg (by omega)]

theorem State.reg_loadRegBlock (s : State) (x r : Reg) (a : Nat) :
    (s.loadRegBlock x a).reg r = if r.val ≤ x.val then s.byte (a + r.val) else s.reg r := by
  simp only [State.reg, State.loadRegBlock_v, loadBlock_getElem, State.byte, Nat.lt_succ_iff]

end Sys2Proof.Machine
end

