-- ==== Sys2Proof/Laws/Draw.lean ====
section
/-! SUPPORT. The sprite draw pixel by pixel: what the two loops of spec/44_draw.md R94 leave in each pixel
and in the collision flag. -/

namespace Sys2Proof.Machine

theorem pixelIndex_inj {px qx : Fin 64} {py qy : Fin 32}
    (h : (pixelIndex px py).val = (pixelIndex qx qy).val) : px = qx ∧ py = qy := by
  simp only [pixelIndex] at h
  exact ⟨Fin.ext (by omega), Fin.ext (by omega)⟩

theorem pixelOf_set (fb : Framebuffer) (px qx : Fin 64) (py qy : Fin 32) (b : Bool) :
    pixelOf (fb.set (pixelIndex px py).val b) qx qy =
      if qx = px ∧ qy = py then b else pixelOf fb qx qy := by
  simp only [pixelOf, Vector.getElem_set]
  by_cases h : (pixelIndex px py).val = (pixelIndex qx qy).val
  · obtain ⟨rfl, rfl⟩ := pixelIndex_inj h; simp
  · have : ¬ (qx = px ∧ qy = py) := by rintro ⟨rfl, rfl⟩; exact h rfl
    simp [h, this]

/-- Two framebuffers with the same pixels are equal. -/
theorem framebuffer_ext {f g : Framebuffer} (h : ∀ px py, pixelOf f px py = pixelOf g px py) : f = g := by
  apply Vector.ext
  intro i hi
  have := h ⟨i % 64, by omega⟩ ⟨i / 64, by omega⟩
  simp only [pixelOf, pixelIndex] at this
  have e : i / 64 * 64 + i % 64 = i := by omega
  simpa [e] using this

/-- Whether the pixel is the one the bit of column `c`, row `r` lands on, and the bit is 1. -/
def bitHits (x0 y0 : Nat) (b : Byte) (r c : Nat) (px : Fin 64) (py : Fin 32) : Bool :=
  decide ((x0 + c) % 64 = px.val) && decide ((y0 + r) % 32 = py.val) && b.getLsbD (7 - c)

/-- One pass of the inner loop, pixel by pixel. -/
theorem pixelOf_plotBit (x0 y0 : Nat) (b : Byte) (r : Nat) (acc : Framebuffer × Bool) (c : Nat)
    (px : Fin 64) (py : Fin 32) :
    pixelOf (plotBit x0 y0 b r acc c).1 px py = (pixelOf acc.1 px py ^^ bitHits x0 y0 b r c px py) := by
  unfold plotBit bitHits
  by_cases hb : b.getLsbD (7 - c) = true
  · rw [if_pos hb]
    simp only [pixelOf_set, hb, Bool.and_true]
    by_cases h : px = Fin.ofNat 64 (x0 + c) ∧ py = Fin.ofNat 32 (y0 + r)
    · obtain ⟨rfl, rfl⟩ := h
      simp [Fin.ofNat]
    · rw [if_neg h]
      have : ¬ ((x0 + c) % 64 = px.val ∧ (y0 + r) % 32 = py.val) := by
        rintro ⟨h1, h2⟩; exact h ⟨Fin.ext h1.symm, Fin.ext h2.symm⟩
      by_cases h1 : (x0 + c) % 64 = px.val
      · have h2 : (y0 + r) % 32 ≠ py.val := fun h2 => this ⟨h1, h2⟩
        simp [h2]
      · simp [h1]
  · simp [hb]

/-- One pass of the inner loop, the collision flag. -/
theorem plotBit_collision (x0 y0 : Nat) (b : Byte) (r : Nat) (acc : Framebuffer × Bool) (c : Nat) :
    (plotBit x0 y0 b r acc c).2 =
      (acc.2 || (b.getLsbD (7 - c) && pixelOf acc.1 (Fin.ofNat 64 (x0 + c)) (Fin.ofNat 32 (y0 + r)))) := by
  unfold plotBit
  by_cases hb : b.getLsbD (7 - c) = true <;> simp [hb]

/-! ### The two loops as one -/

/-- The (row, column) pairs the loops of R94 visit, in their order. -/
def spritePositions (n : Nat) : List (Nat × Nat) :=
  (List.range n).flatMap fun r => (List.range 8).map fun c => (r, c)

theorem mem_spritePositions {n : Nat} {p : Nat × Nat} : p ∈ spritePositions n ↔ p.1 < n ∧ p.2 < 8 := by
  obtain ⟨r, c⟩ := p
  simp [spritePositions]

/-- The two nested loops are one loop over the pairs. -/
theorem plotSprite_eq (x0 y0 : Nat) (row : Nat → Byte) (n : Nat) (acc : Framebuffer × Bool) :
    plotSprite x0 y0 row n acc =
      (spritePositions n).foldl (fun a p => plotBit x0 y0 (row p.1) p.1 a p.2) acc := by
  simp only [plotSprite, plotRow, spritePositions, List.foldl_flatMap, List.foldl_map]

/-- Within one execution no pixel is touched twice (R94): two pairs on one pixel are one pair. -/
theorem spritePositions_distinct {x0 y0 n : Nat} (hn : n ≤ 32) :
    (spritePositions n).Pairwise fun p q =>
      ¬ ((x0 + p.2) % 64 = (x0 + q.2) % 64 ∧ (y0 + p.1) % 32 = (y0 + q.1) % 32) := by
  have hnd : (spritePositions n).Nodup := by
    unfold spritePositions
    rw [List.nodup_flatMap]
    refine ⟨fun r _ => List.Nodup.map (fun a b h => by simpa using h) List.nodup_range, ?_⟩
    refine List.nodup_range.imp ?_
    intro a b hab p hp hq
    simp only [List.mem_map] at hp hq
    obtain ⟨_, _, rfl⟩ := hp
    obtain ⟨_, _, h⟩ := hq
    exact hab (congrArg Prod.fst h).symm
  refine hnd.imp_of_mem ?_
  rintro ⟨r, c⟩ ⟨r', c'⟩ hp hq hne ⟨h1, h2⟩
  rw [mem_spritePositions] at hp hq
  simp only at h1 h2 hp hq
  exact hne (Prod.ext (by simp only; omega) (by simp only; omega))

/-- The pixel a pair's bit lands on, when the bit is 1. -/
def pairHits (x0 y0 : Nat) (row : Nat → Byte) (px : Fin 64) (py : Fin 32) (p : Nat × Nat) : Bool :=
  bitHits x0 y0 (row p.1) p.1 p.2 px py

/-- Exclusive-or folded over a list of which at most one holds. -/
theorem foldl_xor_any {α : Type} (f : α → Bool) (l : List α)
    (h : l.Pairwise fun a b => ¬ (f a = true ∧ f b = true)) :
    ∀ z, l.foldl (fun a c => a ^^ f c) z = (z ^^ l.any f) := by
  induction l with
  | nil => simp
  | cons a l ih =>
    intro z
    rw [List.pairwise_cons] at h
    rw [List.foldl_cons, ih h.2, List.any_cons]
    by_cases ha : f a = true
    · have : l.any f = false := by
        rw [List.any_eq_false]
        exact fun b hb hfb => h.1 b hb ⟨ha, hfb⟩
      simp [ha, this]
    · simp [ha]

theorem pixelOf_foldl (x0 y0 : Nat) (row : Nat → Byte) (px : Fin 64) (py : Fin 32) (l : List (Nat × Nat)) :
    ∀ acc, pixelOf (l.foldl (fun a p => plotBit x0 y0 (row p.1) p.1 a p.2) acc).1 px py =
      l.foldl (fun a p => a ^^ pairHits x0 y0 row px py p) (pixelOf acc.1 px py) := by
  induction l with
  | nil => simp
  | cons p l ih => intro acc; simp only [List.foldl_cons, ih, pixelOf_plotBit, pairHits]

theorem pairHits_iff {x0 y0 : Nat} {row : Nat → Byte} {px : Fin 64} {py : Fin 32} {p : Nat × Nat} :
    pairHits x0 y0 row px py p = true ↔
      (x0 + p.2) % 64 = px.val ∧ (y0 + p.1) % 32 = py.val ∧ (row p.1).getLsbD (7 - p.2) = true := by
  simp [pairHits, bitHits, and_assoc]

/-- The bit of a sprite of `n` rows that lands on a pixel: that of row `r`, column `c`, when the pixel lies
`c` right of `x0` and `r` below `y0`, wrapped (R94). -/
def spriteBit (x0 y0 : Nat) (row : Nat → Byte) (n : Nat) (px : Fin 64) (py : Fin 32) : Bool :=
  (spritePositions n).any (pairHits x0 y0 row px py)

theorem spriteBit_iff {x0 y0 : Nat} {row : Nat → Byte} {n : Nat} {px : Fin 64} {py : Fin 32} :
    spriteBit x0 y0 row n px py = true ↔ ∃ r < n, ∃ c < 8,
      (x0 + c) % 64 = px.val ∧ (y0 + r) % 32 = py.val ∧ (row r).getLsbD (7 - c) = true := by
  simp only [spriteBit, List.any_eq_true, mem_spritePositions, pairHits_iff, Prod.exists]
  constructor
  · rintro ⟨r, c, ⟨hr, hc⟩, h⟩; exact ⟨r, hr, c, hc, h⟩
  · rintro ⟨r, hr, c, hc, h⟩; exact ⟨r, c, ⟨hr, hc⟩, h⟩

/-- Every pixel after a sprite is drawn: the old pixel, exclusive-or the sprite's bit that lands on it. -/
theorem pixelOf_plotSprite (x0 y0 : Nat) (row : Nat → Byte) (n : Nat) (hn : n ≤ 32)
    (acc : Framebuffer × Bool) (px : Fin 64) (py : Fin 32) :
    pixelOf (plotSprite x0 y0 row n acc).1 px py = (pixelOf acc.1 px py ^^ spriteBit x0 y0 row n px py) := by
  rw [plotSprite_eq, pixelOf_foldl, foldl_xor_any, spriteBit]
  refine (spritePositions_distinct (x0 := x0) (y0 := y0) hn).imp ?_
  rintro p q hne ⟨hp, hq⟩
  rw [pairHits_iff] at hp hq
  exact hne ⟨hp.1.trans hq.1.symm, hp.2.1.trans hq.2.1.symm⟩

theorem collision_foldl (x0 y0 : Nat) (row : Nat → Byte) (l : List (Nat × Nat))
    (h : l.Pairwise fun p q =>
      ¬ ((x0 + p.2) % 64 = (x0 + q.2) % 64 ∧ (y0 + p.1) % 32 = (y0 + q.1) % 32)) :
    ∀ acc, (l.foldl (fun a p => plotBit x0 y0 (row p.1) p.1 a p.2) acc).2 =
      (acc.2 || l.any fun p => (row p.1).getLsbD (7 - p.2) &&
        pixelOf acc.1 (Fin.ofNat 64 (x0 + p.2)) (Fin.ofNat 32 (y0 + p.1))) := by
  induction l with
  | nil => simp
  | cons p l ih =>
    intro acc
    rw [List.pairwise_cons] at h
    rw [List.foldl_cons, ih h.2, plotBit_collision, List.any_cons, Bool.or_assoc]
    congr 2
    rw [Bool.eq_iff_iff, List.any_eq_true, List.any_eq_true]
    have key : ∀ q ∈ l, pixelOf (plotBit x0 y0 (row p.1) p.1 acc p.2).1
        (Fin.ofNat 64 (x0 + q.2)) (Fin.ofNat 32 (y0 + q.1)) =
        pixelOf acc.1 (Fin.ofNat 64 (x0 + q.2)) (Fin.ofNat 32 (y0 + q.1)) := by
      intro q hq
      rw [pixelOf_plotBit]
      have : bitHits x0 y0 (row p.1) p.1 p.2 (Fin.ofNat 64 (x0 + q.2)) (Fin.ofNat 32 (y0 + q.1)) = false := by
        rw [Bool.eq_false_iff]
        intro hh
        have := pairHits_iff.1 (show pairHits x0 y0 row _ _ p = true from hh)
        exact h.1 q hq ⟨this.1, this.2.1⟩
      rw [this, Bool.xor_false]
    constructor
    · rintro ⟨q, hq, hb⟩; exact ⟨q, hq, by rw [key q hq] at hb; exact hb⟩
    · rintro ⟨q, hq, hb⟩; exact ⟨q, hq, by rw [key q hq]; exact hb⟩

/-- The collision flag after a sprite is drawn: a 1 bit landed on a pixel that was on (R94). -/
theorem plotSprite_collision (x0 y0 : Nat) (row : Nat → Byte) (n : Nat) (hn : n ≤ 32) (fb : Framebuffer) :
    (plotSprite x0 y0 row n (fb, false)).2 = true ↔
      ∃ px py, spriteBit x0 y0 row n px py = true ∧ pixelOf fb px py = true := by
  rw [plotSprite_eq, collision_foldl _ _ _ _ (spritePositions_distinct hn), Bool.false_or, List.any_eq_true]
  constructor
  · rintro ⟨p, hp, hb⟩
    rw [Bool.and_eq_true] at hb
    rw [mem_spritePositions] at hp
    exact ⟨_, _, spriteBit_iff.2 ⟨p.1, hp.1, p.2, hp.2, rfl, rfl, hb.1⟩, hb.2⟩
  · rintro ⟨px, py, hs, hfb⟩
    obtain ⟨r, hr, c, hc, h1, h2, h3⟩ := spriteBit_iff.1 hs
    refine ⟨(r, c), mem_spritePositions.2 ⟨hr, hc⟩, ?_⟩
    have e1 : Fin.ofNat 64 (x0 + c) = px := Fin.ext h1
    have e2 : Fin.ofNat 32 (y0 + r) = py := Fin.ext h2
    simp only [h3, Bool.true_and]
    rw [e1, e2]; exact hfb

end Sys2Proof.Machine
end

