-- ==== Sys2Proof/Laws/PerInstr.lean ====
section
/-! SUPPORT. Per instruction: the encoding of a well-formed instruction lies in that instruction's own row of
spec/opcode_table.json (spec/30_encoding.md R60). -/

namespace Sys2Proof.Laws.Encoding

/-- The encoding of `i` matches the mask and match of `i`'s row (R60). -/
def Statement (i : Instr) : Prop := i.wellFormed = true → matchesRow (encode i) (rowOf i) = true

theorem cls : Statement .cls := fun _ => by decide

theorem ret : Statement .ret := fun _ => by decide

theorem jp (nnn : Addr) : Statement (.jp nnn) := fun _ =>
  matches_wordNNN 1 nnn (by decide) _ rfl

theorem call (nnn : Addr) : Statement (.call nnn) := fun _ =>
  matches_wordNNN 2 nnn (by decide) _ rfl

theorem seImm (x : Reg) (nn : Byte) : Statement (.seImm x nn) := fun _ =>
  matches_wordXNN 3 x _ (by decide) nn.isLt _ rfl

theorem sneImm (x : Reg) (nn : Byte) : Statement (.sneImm x nn) := fun _ =>
  matches_wordXNN 4 x _ (by decide) nn.isLt _ rfl

theorem seReg (x : Reg) (y : Reg) : Statement (.seReg x y) := fun _ =>
  matches_wordXY 5 x y 0 (by decide) (by decide) _ rfl

theorem ldImm (x : Reg) (nn : Byte) : Statement (.ldImm x nn) := fun _ =>
  matches_wordXNN 6 x _ (by decide) nn.isLt _ rfl

theorem addImm (x : Reg) (nn : Byte) : Statement (.addImm x nn) := fun _ =>
  matches_wordXNN 7 x _ (by decide) nn.isLt _ rfl

theorem ldReg (x : Reg) (y : Reg) : Statement (.ldReg x y) := fun _ =>
  matches_wordXY 8 x y 0 (by decide) (by decide) _ rfl

theorem orReg (x : Reg) (y : Reg) : Statement (.orReg x y) := fun _ =>
  matches_wordXY 8 x y 1 (by decide) (by decide) _ rfl

theorem andReg (x : Reg) (y : Reg) : Statement (.andReg x y) := fun _ =>
  matches_wordXY 8 x y 2 (by decide) (by decide) _ rfl

theorem xorReg (x : Reg) (y : Reg) : Statement (.xorReg x y) := fun _ =>
  matches_wordXY 8 x y 3 (by decide) (by decide) _ rfl

theorem addReg (x : Reg) (y : Reg) : Statement (.addReg x y) := fun _ =>
  matches_wordXY 8 x y 4 (by decide) (by decide) _ rfl

theorem subReg (x : Reg) (y : Reg) : Statement (.subReg x y) := fun _ =>
  matches_wordXY 8 x y 5 (by decide) (by decide) _ rfl

theorem shr (x : Reg) (y : Reg) : Statement (.shr x y) := fun _ =>
  matches_wordXY 8 x y 6 (by decide) (by decide) _ rfl

theorem subnReg (x : Reg) (y : Reg) : Statement (.subnReg x y) := fun _ =>
  matches_wordXY 8 x y 7 (by decide) (by decide) _ rfl

theorem shl (x : Reg) (y : Reg) : Statement (.shl x y) := fun _ =>
  matches_wordXY 8 x y 14 (by decide) (by decide) _ rfl

theorem sneReg (x : Reg) (y : Reg) : Statement (.sneReg x y) := fun _ =>
  matches_wordXY 9 x y 0 (by decide) (by decide) _ rfl

theorem ldI (nnn : Addr) : Statement (.ldI nnn) := fun _ =>
  matches_wordNNN 10 nnn (by decide) _ rfl

theorem jpV0 (nnn : Addr) : Statement (.jpV0 nnn) := fun _ =>
  matches_wordNNN 11 nnn (by decide) _ rfl

theorem rnd (x : Reg) (nn : Byte) : Statement (.rnd x nn) := fun _ =>
  matches_wordXNN 12 x _ (by decide) nn.isLt _ rfl

theorem drw (x : Reg) (y : Reg) (n : Nat) : Statement (.drw x y n) := fun h =>
  matches_wordXYN 13 x y n (by decide) (by simp [Instr.wellFormed] at h; omega) _ rfl

theorem skp (x : Reg) : Statement (.skp x) := fun _ =>
  matches_wordX 14 x 158 (by decide) (by decide) _ rfl

theorem sknp (x : Reg) : Statement (.sknp x) := fun _ =>
  matches_wordX 14 x 161 (by decide) (by decide) _ rfl

theorem ldVxDt (x : Reg) : Statement (.ldVxDt x) := fun _ =>
  matches_wordX 15 x 7 (by decide) (by decide) _ rfl

theorem ldVxK (x : Reg) : Statement (.ldVxK x) := fun _ =>
  matches_wordX 15 x 10 (by decide) (by decide) _ rfl

theorem ldDtVx (x : Reg) : Statement (.ldDtVx x) := fun _ =>
  matches_wordX 15 x 21 (by decide) (by decide) _ rfl

theorem ldStVx (x : Reg) : Statement (.ldStVx x) := fun _ =>
  matches_wordX 15 x 24 (by decide) (by decide) _ rfl

theorem addI (x : Reg) : Statement (.addI x) := fun _ =>
  matches_wordX 15 x 30 (by decide) (by decide) _ rfl

theorem ldF (x : Reg) : Statement (.ldF x) := fun _ =>
  matches_wordX 15 x 41 (by decide) (by decide) _ rfl

theorem ldB (x : Reg) : Statement (.ldB x) := fun _ =>
  matches_wordX 15 x 51 (by decide) (by decide) _ rfl

theorem storeRegs (x : Reg) : Statement (.storeRegs x) := fun _ =>
  matches_wordX 15 x 85 (by decide) (by decide) _ rfl

theorem loadRegs (x : Reg) : Statement (.loadRegs x) := fun _ =>
  matches_wordX 15 x 101 (by decide) (by decide) _ rfl

/-- The law for every instruction, from the lemma of its constructor. -/
theorem all (i : Instr) : Statement i := by
  cases i with
  | cls => exact Encoding.cls
  | ret => exact Encoding.ret
  | jp nnn => exact Encoding.jp nnn
  | call nnn => exact Encoding.call nnn
  | seImm x nn => exact Encoding.seImm x nn
  | sneImm x nn => exact Encoding.sneImm x nn
  | seReg x y => exact Encoding.seReg x y
  | ldImm x nn => exact Encoding.ldImm x nn
  | addImm x nn => exact Encoding.addImm x nn
  | ldReg x y => exact Encoding.ldReg x y
  | orReg x y => exact Encoding.orReg x y
  | andReg x y => exact Encoding.andReg x y
  | xorReg x y => exact Encoding.xorReg x y
  | addReg x y => exact Encoding.addReg x y
  | subReg x y => exact Encoding.subReg x y
  | shr x y => exact Encoding.shr x y
  | subnReg x y => exact Encoding.subnReg x y
  | shl x y => exact Encoding.shl x y
  | sneReg x y => exact Encoding.sneReg x y
  | ldI nnn => exact Encoding.ldI nnn
  | jpV0 nnn => exact Encoding.jpV0 nnn
  | rnd x nn => exact Encoding.rnd x nn
  | drw x y n => exact Encoding.drw x y n
  | skp x => exact Encoding.skp x
  | sknp x => exact Encoding.sknp x
  | ldVxDt x => exact Encoding.ldVxDt x
  | ldVxK x => exact Encoding.ldVxK x
  | ldDtVx x => exact Encoding.ldDtVx x
  | ldStVx x => exact Encoding.ldStVx x
  | addI x => exact Encoding.addI x
  | ldF x => exact Encoding.ldF x
  | ldB x => exact Encoding.ldB x
  | storeRegs x => exact Encoding.storeRegs x
  | loadRegs x => exact Encoding.loadRegs x

end Sys2Proof.Laws.Encoding
end

