-- ==== Sys2Proof/Laws/Step.lean ====
section
/-! SUPPORT. What one step can do, said once (spec/40_flow.md R71; spec/60_exceptions.md R116). -/

namespace Sys2Proof.Machine

/-- Halted, read off the latches (R35). -/
theorem State.engine_halted (s : State) (e : FatalError) : s.engine = .halted e ↔ s.halt = some e := by
  unfold State.engine; split <;> simp_all

/-- Blocked, read off the latches (R35). -/
theorem State.engine_blocked (s : State) (x : Reg) :
    s.engine = .blocked x ↔ s.halt = none ∧ s.wait = some x := by
  unfold State.engine; split <;> simp_all

/-- Ready, read off the latches (R35). -/
theorem State.engine_ready (s : State) : s.engine = .ready ↔ s.halt = none ∧ s.wait = none := by
  unfold State.engine; split <;> simp_all

theorem step_halted {s : State} {e : FatalError} (h : s.halt = some e) : step s = .next s := by
  simp [step, (s.engine_halted e).2 h, haltedTick]

theorem step_blocked {s : State} {x : Reg} (h : s.halt = none) (hw : s.wait = some x) :
    step s = blockedTick x s := by
  simp [step, (s.engine_blocked x).2 ⟨h, hw⟩]

theorem step_ready {s : State} (h : s.halt = none) (hw : s.wait = none) : step s = readyTick s := by
  simp [step, s.engine_ready.2 ⟨h, hw⟩]

/-- The Ready tick in fetch range, on a word that is an instruction. -/
theorem readyTick_exec {s : State} {i : Instr} (h : s.pc.toNat ≤ 4094) (hi : decodeWord s.opcode = some i) :
    readyTick s = exec i s := by
  simp [readyTick, fetch_ok s h, hi]

/-- The Ready tick in fetch range, on a word that is no instruction. -/
theorem readyTick_unknown {s : State} (h : s.pc.toNat ≤ 4094) (hi : decodeWord s.opcode = none) :
    readyTick s = .next (s.halted (.unknownOpcode s.opcode)) := by
  simp [readyTick, fetch_ok s h, hi, raise]

/-- The Ready tick out of fetch range. -/
theorem readyTick_range {s : State} (h : 4094 < s.pc.toNat) :
    readyTick s = .next (s.halted (.outOfRange .memory (s.pc.toNat + 1))) := by
  simp [readyTick, fetch_error s h, raise]

/-- Everything a step that answers a next state can have done: stayed Halted, polled the keys, raised an
error of the fetch or an unknown opcode, or executed the instruction at `pc`. -/
theorem step_cases {s t : State} (h : step s = .next t) :
    (∃ e, s.halt = some e ∧ t = s) ∨
    (∃ x, s.halt = none ∧ s.wait = some x ∧ blockedTick x s = .next t) ∨
    (s.halt = none ∧ s.wait = none ∧ 4094 < s.pc.toNat ∧
      t = s.halted (.outOfRange .memory (s.pc.toNat + 1))) ∨
    (s.halt = none ∧ s.wait = none ∧ s.pc.toNat ≤ 4094 ∧ decodeWord s.opcode = none ∧
      t = s.halted (.unknownOpcode s.opcode)) ∨
    (s.halt = none ∧ s.wait = none ∧ s.pc.toNat ≤ 4094 ∧
      ∃ i, decodeWord s.opcode = some i ∧ exec i s = .next t) := by
  cases hh : s.halt with
  | some e => rw [step_halted hh] at h; exact .inl ⟨e, rfl, by simpa using h.symm⟩
  | none =>
    cases hw : s.wait with
    | some x => rw [step_blocked hh hw] at h; exact .inr (.inl ⟨x, rfl, rfl, h⟩)
    | none =>
      rw [step_ready hh hw] at h
      by_cases hpc : s.pc.toNat ≤ 4094
      · cases hi : decodeWord s.opcode with
        | none =>
          rw [readyTick_unknown hpc hi] at h
          exact .inr (.inr (.inr (.inl ⟨rfl, rfl, hpc, rfl, by simpa using h.symm⟩)))
        | some i =>
          rw [readyTick_exec hpc hi] at h
          exact .inr (.inr (.inr (.inr ⟨rfl, rfl, hpc, i, rfl, h⟩)))
      · rw [readyTick_range (by omega)] at h
        exact .inr (.inr (.inl ⟨rfl, rfl, by omega, by simpa using h.symm⟩))

end Sys2Proof.Machine
end

