-- ==== Sys2Proof/Tests/Slice0.lean ====
section
/-! SUPPORT. Tests of the model: the one check of WellFormed, one word of every row decoded, words the table
refuses, at most two steps of each instruction (expected results from spec/95_test_vectors.md Part 2, whose
vector each test names), the host's operations, and a witness for every hypothesis of every obligation. -/

namespace Sys2Proof.Tests

open Sys2Proof Sys2Proof.Machine

/-! ### Helpers: small states -/

/-- The reset state with one instruction word where the next step fetches it. -/
def word (w : Nat) : State := State.reset.withFetchWord 16 w

/-- The state after one step, for a step that answers one. -/
def next (s : State) : State :=
  match step s with
  | .next t => t
  | .fault _ => s
  | .refused _ => s

/-- `s` with its call-stack pointer at `k`. -/
def depth (k : Fin 17) (s : State) : State := { s with sp := k }

/-- `s` with its framebuffer pixel at a place turned on. -/
def lit (px : Fin 64) (py : Fin 32) (s : State) : State := s.setFb (s.fb.set (pixelIndex px py).val true)

/-- `s` Blocked on register `x`. -/
def blockedOn (x : Reg) (s : State) : State := s.setWait (some x)

/-! ### WellFormed: the one check refuses its ill-formed term, at the boundary -/

theorem test_wellFormed_refuses_sixteen_rows : Instr.wellFormed (.drw 0 0 16) = false := by decide

theorem test_wellFormed_takes_fifteen_rows : Instr.wellFormed (.drw 0 0 15) = true := by decide

/-! ### Decoding: a word of each row, written from the row's format (spec/30_encoding.md R58, R61 to R65) -/

theorem test_decode_cls : decodeWord 0x00E0 = some .cls := by decide
theorem test_decode_ret : decodeWord 0x00EE = some .ret := by decide
theorem test_decode_jp : decodeWord 0x1ABC = some (.jp 0xABC) := by decide
theorem test_decode_call : decodeWord 0x2ABC = some (.call 0xABC) := by decide
theorem test_decode_seImm : decodeWord 0x3A42 = some (.seImm 0xA 0x42) := by decide
theorem test_decode_sneImm : decodeWord 0x4A42 = some (.sneImm 0xA 0x42) := by decide
theorem test_decode_seReg : decodeWord 0x5120 = some (.seReg 1 2) := by decide
theorem test_decode_ldImm : decodeWord 0x63AB = some (.ldImm 3 0xAB) := by decide
theorem test_decode_addImm : decodeWord 0x73FE = some (.addImm 3 0xFE) := by decide
theorem test_decode_ldReg : decodeWord 0x8120 = some (.ldReg 1 2) := by decide
theorem test_decode_orReg : decodeWord 0x8121 = some (.orReg 1 2) := by decide
theorem test_decode_andReg : decodeWord 0x8122 = some (.andReg 1 2) := by decide
theorem test_decode_xorReg : decodeWord 0x8123 = some (.xorReg 1 2) := by decide
theorem test_decode_addReg : decodeWord 0x8124 = some (.addReg 1 2) := by decide
theorem test_decode_subReg : decodeWord 0x8125 = some (.subReg 1 2) := by decide
theorem test_decode_shr : decodeWord 0x8126 = some (.shr 1 2) := by decide
theorem test_decode_subnReg : decodeWord 0x8127 = some (.subnReg 1 2) := by decide
theorem test_decode_shl : decodeWord 0x812E = some (.shl 1 2) := by decide
theorem test_decode_sneReg : decodeWord 0x9120 = some (.sneReg 1 2) := by decide
theorem test_decode_ldI : decodeWord 0xA123 = some (.ldI 0x123) := by decide
theorem test_decode_jpV0 : decodeWord 0xB123 = some (.jpV0 0x123) := by decide
theorem test_decode_rnd : decodeWord 0xC30F = some (.rnd 3 0x0F) := by decide
theorem test_decode_drw : decodeWord 0xD12F = some (.drw 1 2 15) := by decide
theorem test_decode_skp : decodeWord 0xE19E = some (.skp 1) := by decide
theorem test_decode_sknp : decodeWord 0xE1A1 = some (.sknp 1) := by decide
theorem test_decode_ldVxDt : decodeWord 0xF307 = some (.ldVxDt 3) := by decide
theorem test_decode_ldVxK : decodeWord 0xF60A = some (.ldVxK 6) := by decide
theorem test_decode_ldDtVx : decodeWord 0xF315 = some (.ldDtVx 3) := by decide
theorem test_decode_ldStVx : decodeWord 0xF318 = some (.ldStVx 3) := by decide
theorem test_decode_addI : decodeWord 0xF31E = some (.addI 3) := by decide
theorem test_decode_ldF : decodeWord 0xF329 = some (.ldF 3) := by decide
theorem test_decode_ldB : decodeWord 0xF333 = some (.ldB 3) := by decide
theorem test_decode_storeRegs : decodeWord 0xF255 = some (.storeRegs 2) := by decide
theorem test_decode_loadRegs : decodeWord 0xF265 = some (.loadRegs 2) := by decide

/-- CY-8 to CY-13: the words the vectors refuse, every class of them. -/
theorem test_decode_refuses : [(0x0000 : Word), 0x00E1, 0x00EF, 0x0123, 0x5121, 0x912F, 0x8128, 0x8129, 0x812D,
    0x812F, 0xE1FF, 0xE19F, 0xE1A0, 0xF000, 0xF0FF, 0xF075, 0xF085, 0xF030].all
      (fun w => decodeWord w == none) = true := by decide

/-- The encoder on one word of each format, against the words above. -/
theorem test_encode_formats : encode .ret = 0x00EE ∧ encode (.call 0xABC) = 0x2ABC ∧
    encode (.seImm 0xA 0x42) = 0x3A42 ∧ encode (.shl 1 2) = 0x812E ∧ encode (.drw 1 2 15) = 0xD12F ∧
    encode (.loadRegs 2) = 0xF265 := by decide

/-- The bytes of a word: the high one at the lower address; a byte string too short is refused by name. -/
theorem test_decodeBytes : decodeBytes [0x6A, 0xBC, 0x12] = .ok (.ldImm 0xA 0xBC, [0x12]) ∧
    decodeBytes [0x6A] = .error .truncated ∧ decodeBytes [0x81, 0x28] = .error (.unknownOpcode 0x8128) := by
  decide

/-- The table's numbering: bit 0 is the least significant of the one word. -/
theorem test_decodeTableWord : decodeTableWord 16 0xF265 = some (.loadRegs 2) ∧
    decodeTableWord 16 0x8128 = none := by decide

/-! ### The cycle -/

/-- CY-2: a fetch from the last legal address. -/
theorem test_fetch_last : (next ((State.reset.jump 0xFFE).withFetchWord 16 0x1200)).pc = 0x200 := by decide

/-- CY-3: one past it. -/
theorem test_fetch_range : next (State.reset.jump 0xFFF) =
    (State.reset.jump 0xFFF).halted (.outOfRange .memory 0x1000) := rfl

/-- CY-7: an odd `pc`. -/
theorem test_fetch_odd : (next ((State.reset.jump 0x201).withFetchWord 16 0x6B7C)).reg 0xB = 0x7C ∧
    (next ((State.reset.jump 0x201).withFetchWord 16 0x6B7C)).pc = 0x203 := by decide

/-- CY-8: an unknown opcode, and what the tick returns. -/
theorem test_unknown : next State.reset = State.reset.halted (.unknownOpcode 0x0000) ∧
    tickReturns (next State.reset) = .err (.unknownOpcode 0x0000) := ⟨rfl, rfl⟩

/-- CY-15: a Halted tick changes nothing, timers and keys still answer to the host. -/
theorem test_halted : next ((State.reset.halted (.unknownOpcode 0)).setDt 3) =
      (State.reset.halted (.unknownOpcode 0)).setDt 3 ∧
    (decrementTimers ((State.reset.halted (.unknownOpcode 0)).setDt 3)).dt = 2 := ⟨rfl, rfl⟩

/-! ### Control transfer -/

/-- FL-1. -/
theorem test_cls : (next (lit 5 5 (lit 63 31 (word 0x00E0)))).fb = Vector.replicate 2048 false := rfl

/-- FL-2. -/
theorem test_jp : (next (word 0x1ABC)).pc = 0xABC := by decide

/-- FL-4: the idle loop. -/
theorem test_jp_self : next (word 0x1200) = word 0x1200 := rfl

/-- FL-5. -/
theorem test_call : (next (word 0x2ABC)).slot 0 = 0x0202 ∧ (next (word 0x2ABC)).sp = 1 ∧
    (next (word 0x2ABC)).pc = 0xABC := by decide

/-- FL-8. -/
theorem test_call_full : next (depth 16 (word 0x2ABC)) = (depth 16 (word 0x2ABC)).halted .stackOverflow := rfl

/-- FL-6. -/
theorem test_ret : (next (((word 0x00EE).push 0x0456))).pc = 0x456 ∧ (next ((word 0x00EE).push 0x0456)).sp = 0 ∧
    (next ((word 0x00EE).push 0x0456)).slot 0 = 0x0456 := by decide

/-- FL-7. -/
theorem test_ret_empty : next (word 0x00EE) = (word 0x00EE).halted .stackUnderflow := rfl

/-- FL-10. -/
theorem test_jpV0 : (next ((word 0xBFFF).setReg 0 0xFF)).pc = 0x10FE := by decide

/-! ### Skips -/

/-- SK-1, SK-2. -/
theorem test_seImm : (next ((word 0x3A42).setReg 0xA 0x42)).pc = 0x204 ∧
    (next ((word 0x3A42).setReg 0xA 0x41)).pc = 0x202 := by decide

/-- SK-3, SK-4. -/
theorem test_sneImm : (next ((word 0x4A42).setReg 0xA 0x42)).pc = 0x202 ∧
    (next ((word 0x4A42).setReg 0xA 0x41)).pc = 0x204 := by decide

/-- SK-5, SK-6. -/
theorem test_seReg : (next (((word 0x5120).setReg 1 7).setReg 2 7)).pc = 0x204 ∧
    (next (((word 0x5120).setReg 1 7).setReg 2 8)).pc = 0x202 := by decide

/-- SK-8, SK-9. -/
theorem test_sneReg : (next (((word 0x9120).setReg 1 7).setReg 2 7)).pc = 0x202 ∧
    (next (((word 0x9120).setReg 1 7).setReg 2 8)).pc = 0x204 := by decide

/-! ### Arithmetic, logic, shifts -/

/-- `V[a]` and VF after one step of `w` with `V[1] = p`, `V[2] = q` and VF 0x77. -/
def binary (w : Nat) (a : Reg) (p q : Byte) : Byte × Byte :=
  let t := next ((((word w).setReg 15 0x77).setReg 1 p).setReg 2 q)
  (t.reg a, t.reg 15)

/-- AR-1. -/
theorem test_ldImm : (next (word 0x63AB)).reg 3 = 0xAB := by decide

/-- AR-4. -/
theorem test_addImm : binary 0x7101 1 0xFF 0 = (0x00, 0x77) := by decide

/-- AR-5: VF as the destination holds the sum. -/
theorem test_addImm_vf : (next ((word 0x7F02).setReg 15 0xFF)).reg 15 = 0x01 := by decide

/-- AR-6. -/
theorem test_ldReg : binary 0x8120 1 1 0x99 = (0x99, 0x77) := by decide

/-- AR-8. -/
theorem test_orReg : binary 0x8121 1 0xF0 0x0F = (0xFF, 0x77) := by decide

/-- AR-9. -/
theorem test_andReg : binary 0x8122 1 0xFC 0x3F = (0x3C, 0x77) := by decide

/-- AR-10. -/
theorem test_xorReg : binary 0x8123 1 0xFF 0x0F = (0xF0, 0x77) := by decide

/-- AR-13, AR-14: either side of the carry. -/
theorem test_addReg : binary 0x8124 1 0xFF 0x01 = (0x00, 1) ∧ binary 0x8124 1 0xFE 0x01 = (0xFF, 0) := by decide

/-- AR-17, AR-19: VF as destination, VF as source. -/
theorem test_addReg_vf : (next (((word 0x8F14).setReg 15 0xF0).setReg 1 0x20)).reg 15 = 1 ∧
    (next (((word 0x81F4).setReg 15 0xF0).setReg 1 0x20)).reg 1 = 0x10 ∧
    (next (((word 0x81F4).setReg 15 0xF0).setReg 1 0x20)).reg 15 = 1 := by decide

/-- AR-22, AR-23: a borrow, and equal operands. -/
theorem test_subReg : binary 0x8125 1 0x12 0x34 = (0xDE, 0) ∧ binary 0x8125 1 0x34 0x34 = (0x00, 1) := by decide

/-- AR-25. -/
theorem test_subReg_vf : (next (((word 0x8F15).setReg 15 5).setReg 1 3)).reg 15 = 1 := by decide

/-- AR-28, AR-29. -/
theorem test_subnReg : binary 0x8127 1 0x12 0x34 = (0x22, 1) ∧ binary 0x8127 1 0x34 0x12 = (0xDE, 0) := by decide

/-- SH-1, at the decided SHIFT_SRC. -/
theorem test_shr : binary 0x8126 1 0x05 0x82 = (0x02, 1) := by decide

/-- SH-4, at the decided SHIFT_SRC. -/
theorem test_shl : binary 0x812E 1 0x81 0x41 = (0x02, 1) := by decide

/-- SH-1 and SH-4 at the alternative SHIFT_SRC. -/
theorem test_shift_alternative :
    (shiftRight .vy 1 2 ((State.reset.setReg 1 0x05).setReg 2 0x82)).reg 1 = 0x41 ∧
    (shiftLeft .vy 1 2 ((State.reset.setReg 1 0x81).setReg 2 0x41)).reg 1 = 0x82 := by decide

/-! ### Random -/

/-- RN-4: the draw masked, and the counter moved on. -/
theorem test_rnd : (next (word 0xC30F)).reg 3 = Config.drawByte 0 &&& 0x0F ∧ (next (word 0xC30F)).draws = 1 :=
  ⟨rfl, rfl⟩

/-! ### Draw -/

/-- `s` with sprite bytes from 0x300 up and `I` at them. -/
def sprite (bs : List Byte) (s : State) : State := (s.storeBytes 0x300 bs).setIndex 0x300

/-- Pixel (1,0) on, a sprite row that starts 11 at (0,0), as DR-8. -/
def collided : State := next (sprite [0xC0] (lit 1 0 (word 0xD011)))

/-- DR-8: a pixel turned on, a pixel turned off, the collision. -/
theorem test_drw_collides : collided.pixel 0 0 = true ∧ collided.pixel 1 0 = false ∧ collided.reg 15 = 1 := by
  decide +kernel

/-- Two rows drawn from (63,31), as DR-6 and DR-7 in one. -/
def wrapped : State := next (sprite [0xC0, 0x80] (((word 0xD012).setReg 0 255).setReg 1 255))

/-- DR-6, DR-7: both wraps, bit 7 the leftmost, rows downward, no collision. -/
theorem test_drw_wraps : wrapped.pixel 63 31 = true ∧ wrapped.pixel 0 31 = true ∧ wrapped.pixel 63 0 = true ∧
    wrapped.pixel 0 0 = false ∧ wrapped.reg 15 = 0 := by decide +kernel

/-! ### Keys -/

/-- KY-1, KY-2. -/
theorem test_skp : (next (((word 0xE19E).setKeyBit 5 true).setReg 1 5)).pc = 0x204 ∧
    (next (((word 0xE19E).setKeyBit 5 true).setReg 1 4)).pc = 0x202 := by decide

/-- KY-5. -/
theorem test_skp_range : (next ((word 0xE19E).setReg 1 16)).halt = some (.outOfRange .keyIndex 16) := by decide

/-- KY-3, KY-4. -/
theorem test_sknp : (next (((word 0xE1A1).setKeyBit 5 true).setReg 1 5)).pc = 0x202 ∧
    (next (((word 0xE1A1).setKeyBit 5 true).setReg 1 4)).pc = 0x204 := by decide

/-- KY-6. -/
theorem test_sknp_range : (next ((word 0xE1A1).setReg 1 0xFF)).halt = some (.outOfRange .keyIndex 255) := by
  decide

/-- KY-7. -/
theorem test_ldVxK : (next (((word 0xF60A).setKeyBit 9 true).setKeyBit 4 true)).reg 6 = 4 ∧
    (next (((word 0xF60A).setKeyBit 9 true).setKeyBit 4 true)).pc = 0x202 := by decide

/-- KY-8. -/
theorem test_ldVxK_blocks : next (word 0xF60A) = blockedOn 6 (word 0xF60A) := rfl

/-- KY-11: a Blocked tick takes the lowest key. -/
theorem test_blocked : (next ((blockedOn 5 (word 0xF50A)).setKeyBit 0xC true |>.setKeyBit 3 true)).reg 5 = 3 ∧
    (next ((blockedOn 5 (word 0xF50A)).setKeyBit 0xC true |>.setKeyBit 3 true)).wait = none := by decide

/-! ### Timers and the index register -/

/-- TM-1. -/
theorem test_ldVxDt : (next ((word 0xF307).setDt 0x2A)).reg 3 = 0x2A := by decide

/-- TM-2. -/
theorem test_ldDtVx : (next ((word 0xF315).setReg 3 0x2A)).dt = 0x2A := by decide

/-- TM-3. -/
theorem test_ldStVx : toneOn (next ((word 0xF318).setReg 3 0x2A)) = true := by decide

/-- IX-1. -/
theorem test_ldI : (next (word 0xAFFF)).index = 0x0FFF := by decide

/-- IX-3. -/
theorem test_addI_wraps : (next (((word 0xF31E).setIndex 0xFFFF).setReg 3 0xFF)).index = 0x00FE := by decide

/-- IX-6. -/
theorem test_ldF : (next ((word 0xF329).setReg 3 0x0F)).index = 0x004B := by decide

/-- IX-7. -/
theorem test_ldF_range : (next ((word 0xF329).setReg 3 0x10)).halt = some (.outOfRange .glyphIndex 16) := by
  decide

/-! ### Memory transfers -/

/-- The three bytes from `a` up. -/
def three (s : State) (a : Nat) : List Byte := [s.byte a, s.byte (a + 1), s.byte (a + 2)]

/-- BC-3. -/
theorem test_ldB : three (next (((word 0xF333).setIndex 0x300).setReg 3 156)) 0x300 = [1, 5, 6] := by decide

/-- BC-6: nothing is stored. -/
theorem test_ldB_range : next (((word 0xF333).setIndex 0xFFE).setReg 3 255) =
    (((word 0xF333).setIndex 0xFFE).setReg 3 255).halted (.outOfRange .memory 0x1000) := rfl

/-- MS-1. -/
theorem test_storeRegs : three (next (((((word 0xF255).setIndex 0x300).setReg 0 0x11).setReg 1 0x22).setReg 2 0x33))
      0x300 = [0x11, 0x22, 0x33] ∧
    (next (((word 0xF255).setIndex 0x300).setReg 3 0x44)).byte 0x303 = 0 ∧
    (next ((word 0xF255).setIndex 0x300)).index = 0x300 := by decide

/-- MS-5. -/
theorem test_storeRegs_range : next ((word 0xF155).setIndex 0xFFF) =
    ((word 0xF155).setIndex 0xFFF).halted (.outOfRange .memory 0x1000) := rfl

/-- MS-8: the first font bytes, VF loaded as data. -/
theorem test_loadRegs : (next (word 0xFF65)).v.toList = [0xF0, 0x90, 0x90, 0x90, 0xF0, 0x20, 0x60, 0x20, 0x20, 0x70,
    0xF0, 0x10, 0xF0, 0x80, 0xF0, 0xF0] := by decide

/-- MS-10. -/
theorem test_loadRegs_range : (next ((word 0xF065).setIndex 0x1000)).halt = some (.outOfRange .memory 0x1000) := by
  decide

/-! ### The host -/

/-- TM-4: one decrement above the floor, one at it. -/
theorem test_decrement : (decrementTimers (State.reset.setDt 2)).dt = 1 ∧
    (decrementTimers (State.reset.setDt 2)).st = 0 := by decide

/-- HO-3. -/
theorem test_setKey : setKey 15 true State.reset = .next (State.reset.setKeyBit 15 true) ∧
    setKey 16 true State.reset = .refused (.noSuchKey 16) := ⟨rfl, rfl⟩

/-- HO-4. -/
theorem test_load : load [0x12, 0x00] State.reset = .next (State.reset.storeBytes 0x200 [0x12, 0x00]) := rfl

/-- HO-6, on a state with mutations. -/
theorem test_reset : hostReset ((word 0x2ABC).setReg 3 7 |>.setDt 9 |>.halted .stackOverflow) = State.reset := rfl

/-- MS-11 and the canonical form: a byte equal to the reset byte is not listed. -/
theorem test_memory_canonical : ((State.reset.storeBytes 0 [0xFF]).storeBytes 0 [0xF0]).mem = [] ∧
    (State.reset.storeBytes 0 [0xFF]).mem = [(0, 0xFF)] := by decide

/-! ### Witnesses: for every obligation with hypotheses, a state and operands that meet them together, clause by
clause, at the boundary where the clause has one -/

/-- DecodeOfEncodeIsIdentity, at the one bound of WellFormed. -/
theorem witness_decode_of_encode : Instr.wellFormed (.drw 15 15 15) = true ∧ Instr.wellFormed (.jp 0xFFF) = true := by
  decide

/-- EncodeOfDecodeIsIdentity: a shift, whose `y` the machine does not read. -/
theorem witness_encode_of_decode : decodeWord 0x8FF6 = some (.shr 15 15) := by decide

/-- DecodeFollowsOpcodeTable: a word that decodes, a word that matches a row. -/
theorem witness_table_rows : decodeWord 0x6005 = some (.ldImm 0 5) ∧ rowOf .ret ∈ opcodeRows ∧
    matchesRow 0x00EE (rowOf .ret) = true := by decide

/-- The word 0 matches no row. -/
theorem test_no_row : opcodeRows.all (fun row => !(matchesRow 0x0000 row)) = true := by decide

/-- DecodeFollowsOpcodeTable: a Ready state in fetch range whose word matches no row. -/
theorem witness_table_unknown : State.reset.isReady ∧ State.reset.pc.toNat ≤ 4094 ∧
    ∀ row ∈ opcodeRows, matchesRow State.reset.opcode row = false :=
  ⟨⟨rfl, rfl⟩, by decide, fun row h => by
    rw [show State.reset.opcode = 0x0000 by decide]
    simpa using List.all_eq_true.1 test_no_row row h⟩

/-- FetchIsBigEndian, at the last legal fetch. -/
theorem witness_fetch : (State.reset.jump 4094).pc.toNat ≤ 4094 := by decide

/-- `JP 0x200` at the last legal fetch address. -/
def lastWord : State := (State.reset.jump 0xFFE).withFetchWord 16 0x1200

/-- StepRunsDecodedInstruction, at the last legal fetch. -/
theorem witness_step_runs : lastWord.isReady ∧ lastWord.pc.toNat = 4094 ∧
    decodeBytes [lastWord.byte lastWord.pc.toNat, lastWord.byte (lastWord.pc.toNat + 1)] = .ok (.jp 0x200, []) :=
  ⟨⟨rfl, rfl⟩, by decide, by decide⟩

/-- TickFollowsPriorityOrder: Halted (with `WAIT` set too), then Blocked. -/
theorem witness_priority_latches :
    ((blockedOn 3 State.reset).halted .stackOverflow).halt = some .stackOverflow ∧
    (blockedOn 3 State.reset).halt = none ∧ (blockedOn 3 State.reset).wait = some 3 := by decide

/-- TickFollowsPriorityOrder: Ready on either side of the fetch bound. -/
theorem witness_priority_fetch : (State.reset.jump 4095).isReady ∧ 4094 < (State.reset.jump 4095).pc.toNat ∧
    (State.reset.jump 4094).isReady ∧ (State.reset.jump 4094).pc.toNat ≤ 4094 ∧
    decodeWord (State.reset.jump 4094).opcode = none :=
  ⟨⟨rfl, rfl⟩, by decide, ⟨rfl, rfl⟩, by decide, by decide⟩

/-- TickFollowsPriorityOrder: Ready on a word that is an instruction. -/
theorem witness_priority_exec : lastWord.isReady ∧ lastWord.pc.toNat ≤ 4094 ∧
    decodeWord lastWord.opcode = some (.jp 0x200) := ⟨⟨rfl, rfl⟩, by decide, by decide⟩

/-- RaiseChangesOnlyHalt: the tick of the reset state raises. -/
theorem witness_raise : step State.reset = .next (State.reset.halted (.unknownOpcode 0)) ∧
    State.reset.halt = none ∧ (State.reset.halted (.unknownOpcode 0)).halt = some (.unknownOpcode 0) :=
  ⟨rfl, rfl, rfl⟩

/-- RaisesExactlyTheListedErrors: a Ready state, and a state for the fetch line and the two stack lines. -/
theorem witness_raises : Raises State.reset (.unknownOpcode 0) ∧
    Raises (State.reset.jump 4095) (.outOfRange .memory 4096) ∧
    Raises (depth 16 (word 0x2ABC)) .stackOverflow ∧ Raises (word 0x00EE) .stackUnderflow :=
  ⟨.unknown (by decide) (by decide), .fetch (by decide), .overflow (by decide) 0xABC (by decide) rfl,
    .underflow (by decide) (by decide) rfl⟩

/-- RaisesExactlyTheListedErrors: the four memory lines, one past the last legal address. -/
theorem witness_raises_memory :
    Raises ((word 0xD012).setIndex 0xFFF) (.outOfRange .memory 4096) ∧
    Raises ((word 0xF333).setIndex 0xFFE) (.outOfRange .memory 4096) ∧
    Raises ((word 0xFF55).setIndex 0xFF1) (.outOfRange .memory 4096) ∧
    Raises ((word 0xFF65).setIndex 0xFF1) (.outOfRange .memory 4096) :=
  ⟨.sprite (by decide) 0 1 2 (by decide) (by decide) (by decide), .bcd (by decide) 3 (by decide) (by decide),
    .store (by decide) 15 (by decide) (by decide), .load (by decide) 15 (by decide) (by decide)⟩

/-- RaisesExactlyTheListedErrors: the three lines on a register's value, at 16. -/
theorem witness_raises_value :
    Raises ((word 0xE19E).setReg 1 16) (.outOfRange .keyIndex 16) ∧
    Raises ((word 0xE1A1).setReg 1 16) (.outOfRange .keyIndex 16) ∧
    Raises ((word 0xF129).setReg 1 16) (.outOfRange .glyphIndex 16) :=
  ⟨.skp (by decide) 1 (by decide) (by decide), .sknp (by decide) 1 (by decide) (by decide),
    .glyph (by decide) 1 (by decide) (by decide)⟩

/-- HaltLastsUntilReset: a move of a Halted machine that is not `reset`, and `reset`. -/
theorem witness_halt_lasts :
    makeMove .decrementTimers (State.reset.halted .stackUnderflow) =
      .next (decrementTimers (State.reset.halted .stackUnderflow)) ∧
    (State.reset.halted .stackUnderflow).halt = some .stackUnderflow ∧ Move.decrementTimers ≠ .reset ∧
    makeMove .reset (State.reset.halted .stackUnderflow) = .next State.reset :=
  ⟨rfl, rfl, by decide, rfl⟩

/-- The reset state meets the invariant's three parts. -/
theorem inv_of_reset_bits {s : State} (h : s.mem.wf = true) (hh : s.halt = none) (hw : s.wait = none)
    (hpc : s.pc.toNat ≤ 0x10FE) (hk : ∀ k, (s.slot k).toNat ≤ 4096) : s.Inv :=
  ⟨h, fun c => absurd hh c, hpc, hk, fun c => absurd hw c⟩

/-- StepKeepsInvariant, EveryMoveKeepsInvariant: a state that meets it, `pc` at its bound, and its next state. -/
theorem witness_invariant : (State.reset.jump 0x10FE).Inv ∧
    makeMove .tick (State.reset.jump 0x10FE) = step (State.reset.jump 0x10FE) ∧
    step (State.reset.jump 0x10FE) = .next ((State.reset.jump 0x10FE).halted (.outOfRange .memory 0x10FF)) :=
  ⟨inv_of_reset_bits rfl rfl rfl (by decide) (by decide), rfl, rfl⟩

/-- ReachableStatesMeetInvariant: a schedule that answers. -/
theorem witness_reachable : runMoves [.reset, .load [0x12, 0x00], .setKey 15 true, .tick] State.reset =
    .next ((State.reset.storeBytes 0x200 [0x12, 0x00]).setKeyBit 15 true) := rfl

/-- KeyLatchIsWrittenByHostOnly: a tick, and the host's write. -/
theorem witness_key_latch : makeMove .tick (word 0x1200) = .next (word 0x1200) ∧
    makeMove (.setKey 15 true) (word 0x1200) = .next ((word 0x1200).setKeyBit 15 true) := ⟨rfl, rfl⟩

/-- TimersChangeOnlyAsStated: a step that writes a timer. -/
theorem witness_timers : step ((word 0xF315).setReg 3 9) = .next (((word 0xF315).setReg 3 9).advance.setDt 9) := rfl

/-- ScreenChangesOnlyByClsAndDrw: a step that clears a pixel. -/
theorem witness_screen : step (lit 63 31 (word 0x00E0)) =
    .next ((lit 63 31 (word 0x00E0)).advance.setFb clearFramebuffer) := rfl

/-- MemoryChangesOnlyByStores: a step of each store, up to the last byte of memory. -/
theorem witness_memory :
    step ((word 0xF333).setIndex 0xFFD) = .next (((word 0xF333).setIndex 0xFFD).advance.storeBytes 0xFFD [0, 0, 0]) ∧
    (next (((word 0xFF55).setIndex 0xFF0).setReg 15 0x10)).byte 0xFFF = 0x10 := ⟨rfl, by decide⟩

/-- StackAndIndexHaveFewWriters: a step that pushes, a step that writes `I`. -/
theorem witness_stack_index : step (word 0x2ABC) = .next (((word 0x2ABC).advance.push 0x202).jump 0xABC) ∧
    step (word 0xAFFF) = .next ((word 0xAFFF).advance.setIndex 0xFFF) := ⟨rfl, rfl⟩

/-- A store of `12 00` (`JP 0x200`) over the instruction that follows it, at `pc`. -/
def patching (pc : Word) : State := (((State.reset.jump pc).setIndex (pc + 2)).setReg 0 0x12).setReg 1 0x00

/-- StoredInstructionRunsNext, where the stored word ends at the last byte of memory and `x` is 1. -/
theorem witness_stored : (patching 0xFFC).isReady ∧ 1 ≤ (1 : Reg).val ∧
    (patching 0xFFC).index.toNat = (patching 0xFFC).pc.toNat + 2 ∧
    (patching 0xFFC).index.toNat + (1 : Reg).val = 4095 ∧
    decodeWord (wordOfBytes ((patching 0xFFC).reg 0) ((patching 0xFFC).reg 1)) = some (.jp 0x200) :=
  ⟨⟨rfl, rfl⟩, by decide, by decide, by decide, by decide⟩

/-- ResetLeavesEveryComponentDefined: a reset of a changed state. -/
theorem witness_reset : makeMove .reset ((word 0x2ABC).halted .stackOverflow) = .next State.reset := rfl

/-- LoadWritesTheProgramBytes at both ends of its range and one past it; SetKeyWritesOneFlag one past its range. -/
theorem witness_host_calls : ([] : List Byte).length ≤ 3584 ∧ (List.replicate 3584 (0 : Byte)).length ≤ 3584 ∧
    3584 < (List.replicate 3585 (0 : Byte)).length ∧ 15 < 16 :=
  ⟨by decide, by rw [List.length_replicate], by rw [List.length_replicate]; decide, by decide⟩

/-- RetPopsTheNewestAddress: one entry, and a full stack; the empty stack is in witness_stack_limits. -/
theorem witness_ret : (depth 1 State.reset).sp.val = (0 : Fin 16).val + 1 ∧
    (depth 16 State.reset).sp.val = (15 : Fin 16).val + 1 := by decide

/-- JpSetsPcOnly: the jump to itself; a Ready state for the jump to 0xFFF. -/
theorem witness_jp : State.reset.pc.toNat = (0x200 : Addr).toNat ∧ State.reset.isReady ∧
    (0xFFF : Addr) = 0xFFF := ⟨by decide, ⟨rfl, rfl⟩, rfl⟩

/-- CallPushesTheNextAddress: an empty stack, and one short of full. ReturnComesBackAfterCall holds there too. -/
theorem witness_call : State.reset.sp.val = (0 : Fin 16).val ∧ (depth 15 State.reset).sp.val = (15 : Fin 16).val ∧
    (depth 15 State.reset).sp.val < 16 := by decide

/-- StackLimitsHaltTheEngine: full, and empty. -/
theorem witness_stack_limits : (depth 16 State.reset).sp.val = 16 ∧ (depth 0 State.reset).sp.val = 0 := by decide

/-- AddSetsCarryInVf, SubtractionsSetNotBorrowInVf, ShiftsMoveTheLostBitToVf, ShiftSourcesDifferOnlyInOperand: a
destination that is not VF, the nearest one. -/
theorem witness_destination : (14 : Reg) ≠ vf := by decide

/-- RandomByteIsMasked: the empty and the full mask. EachRandomDrawIsFresh: a step that draws. -/
theorem witness_random : ((0 : Byte) = 0 ∧ (0xFF : Byte) = 0xFF) ∧ step (word 0xC300) =
    .next ((word 0xC300).advance.drawn.setReg 3 (Config.drawByte 0 &&& 0)) := ⟨⟨rfl, rfl⟩, rfl⟩

/-- EachRandomDrawIsFresh: a step that draws none. -/
theorem witness_no_draw : step (word 0x63AB) = .next ((word 0x63AB).advance.setReg 3 0xAB) := rfl

/-- DrawXorsSpriteIntoScreen: no row at any `I`; one row at the last byte; fifteen rows up to it. -/
theorem witness_draw : ((0 : Nat) ≤ 15 ∧ ((0 : Nat) = 0 ∨ (State.reset.setIndex 0xFFFF).index.toNat + 0 - 1 ≤ 4095)) ∧
    (1 ≤ 15 ∧ (1 = 0 ∨ (State.reset.setIndex 0xFFF).index.toNat + 1 - 1 ≤ 4095)) ∧
    (15 ≤ 15 ∧ (15 = 0 ∨ (State.reset.setIndex 0xFF1).index.toNat + 15 - 1 ≤ 4095)) := by decide

/-- DrawXorsSpriteIntoScreen: a draw that turns a pixel off, and one that turns none off (no rows). -/
theorem witness_draw_flag :
    ((sprite [0xC0] (lit 1 0 (word 0xD011))).pixel 1 0 = true ∧ collided.pixel 1 0 = false) ∧
    ¬ ∃ px py, State.reset.pixel px py = true ∧ State.reset.pixel px py = false :=
  ⟨by decide +kernel, fun ⟨px, py, h, h'⟩ => by rw [h] at h'; exact Bool.noConfusion h'⟩

/-- DrawTwiceRestoresScreen: registers that are not VF, a sprite with a 1 bit. -/
theorem witness_draw_twice : (0 : Reg) ≠ vf ∧ (14 : Reg) ≠ vf ∧ 1 ≤ 15 ∧
    (1 = 0 ∨ (sprite [0x01] State.reset).index.toNat + 1 - 1 ≤ 4095) ∧
    ∃ r < 1, ∃ c < 8, ((sprite [0x01] State.reset).byte ((sprite [0x01] State.reset).index.toNat + r)).getLsbD c =
      true := ⟨by decide, by decide, by decide, by decide, 0, by decide, 0, by decide, by decide⟩

/-- KeySkipsTestTheLatch: the first and the last key number, and one past it. -/
theorem witness_key_skips : ((State.reset.setReg 1 0).reg 1).toNat = (0 : Fin 16).val ∧
    ((State.reset.setReg 1 15).reg 1).toNat = (15 : Fin 16).val ∧
    15 < ((State.reset.setReg 1 16).reg 1).toNat := by decide

/-- KeyWaitTakesLeastKeyOrBlocks, BlockedTickPollsTheKeys: the last key alone; no key. -/
theorem witness_key_wait : ((State.reset.setKeyBit 15 true).key 15 = true ∧
      ∀ j < (15 : Fin 16), (State.reset.setKeyBit 15 true).key j = false) ∧
    ∀ k, State.reset.key k = false := by decide

/-- BlockedTickPollsTheKeys, BlockedTickRepeatsTheKeyWait: Blocked at its own `Fx0A`. -/
theorem witness_blocked : (blockedOn 5 (word 0xF50A)).halt = none ∧ (blockedOn 5 (word 0xF50A)).wait = some 5 ∧
    (blockedOn 5 (word 0xF50A)).pc.toNat ≤ 4094 ∧
    decodeWord (blockedOn 5 (word 0xF50A)).opcode = some (.ldVxK 5) := by decide

/-- GlyphAddressIsFiveTimesTheDigit: the last digit, and one past it. -/
theorem witness_digit : ((State.reset.setReg 3 15).reg 3).toNat ≤ 15 ∧
    15 < ((State.reset.setReg 3 16).reg 3).toNat := by decide

/-- SoundTimerIsWrittenAndNeverRead: a step that answers, from a state whose `ST` is not 0. -/
theorem witness_sound : step ((word 0x63AB).setSt 7) = .next (((word 0x63AB).setSt 7).advance.setReg 3 0xAB) := rfl

/-- BcdStoresThreeDigits: the last legal `I`. -/
theorem witness_bcd : (State.reset.setIndex 0xFFD).address 2 ≤ 4095 := by decide

/-- StoreBlockWritesV0ToVx, LoadBlockReadsV0ToVx, BlockConventionsDifferOnlyInIndex: the last legal `I` for the
shortest and the longest block, with a register in the block and one above it. -/
theorem witness_block : (State.reset.setIndex 0xFFF).address (0 : Reg).val ≤ 4095 ∧
    (State.reset.setIndex 0xFF0).address (15 : Reg).val ≤ 4095 ∧ (15 : Reg).val ≤ (15 : Reg).val ∧
    (0 : Reg).val < (1 : Reg).val := by decide

/-- OutOfRangeAddressesRaise: each clause one past its bound. -/
theorem witness_out_of_range : (0 < 2 ∧ 4095 < (State.reset.setIndex 0xFFF).index.toNat + 2 - 1) ∧
    4095 < (State.reset.setIndex 0xFFE).index.toNat + 2 ∧
    4095 < (State.reset.setIndex 0xFF1).index.toNat + (15 : Reg).val := by decide

end Sys2Proof.Tests
end

section
/-! The timers (spec/10_state.md R23): only `Fx15` and `Fx18` write one in a tick, and a decrement stops at 0. -/

namespace Sys2Proof.Machine

/-! ### The timers under the operations composed of named updates -/

@[simp] theorem State.setFlag_dt (s : State) (f : Bool) : (s.setFlag f).dt = s.dt := rfl
@[simp] theorem State.setFlag_st (s : State) (f : Bool) : (s.setFlag f).st = s.st := rfl
@[simp] theorem State.resultThenFlag_dt (s : State) (x : Reg) (r : Byte) (f : Bool) :
    (s.resultThenFlag x r f).dt = s.dt := rfl
@[simp] theorem State.resultThenFlag_st (s : State) (x : Reg) (r : Byte) (f : Bool) :
    (s.resultThenFlag x r f).st = s.st := rfl
@[simp] theorem State.skipIf_dt (s : State) (c : Bool) : (s.skipIf c).dt = s.dt := by rw [State.skipIf_eq]
@[simp] theorem State.skipIf_st (s : State) (c : Bool) : (s.skipIf c).st = s.st := by rw [State.skipIf_eq]
@[simp] theorem State.bumpIndex_dt (s : State) (inc : Bool) (x : Reg) : (s.bumpIndex inc x).dt = s.dt := by
  cases inc <;> rfl
@[simp] theorem State.bumpIndex_st (s : State) (inc : Bool) (x : Reg) : (s.bumpIndex inc x).st = s.st := by
  cases inc <;> rfl
@[simp] theorem shiftRight_dt (src : ShiftSrc) (x y : Reg) (s : State) : (shiftRight src x y s).dt = s.dt := rfl
@[simp] theorem shiftRight_st (src : ShiftSrc) (x y : Reg) (s : State) : (shiftRight src x y s).st = s.st := rfl
@[simp] theorem shiftLeft_dt (src : ShiftSrc) (x y : Reg) (s : State) : (shiftLeft src x y s).dt = s.dt := rfl
@[simp] theorem shiftLeft_st (src : ShiftSrc) (x y : Reg) (s : State) : (shiftLeft src x y s).st = s.st := rfl
@[simp] theorem storeBlock_dt (inc : Bool) (x : Reg) (s : State) : (storeBlock inc x s).dt = s.dt := by
  simp [storeBlock]
@[simp] theorem storeBlock_st (inc : Bool) (x : Reg) (s : State) : (storeBlock inc x s).st = s.st := by
  simp [storeBlock]
@[simp] theorem loadBlockInto_dt (inc : Bool) (x : Reg) (s : State) : (loadBlockInto inc x s).dt = s.dt := by
  simp [loadBlockInto]
@[simp] theorem loadBlockInto_st (inc : Bool) (x : Reg) (s : State) : (loadBlockInto inc x s).st = s.st := by
  simp [loadBlockInto]

/-! ### What leaves the timers alone -/

/-- An instruction that ends in one state keeps the timers when that state has them. -/
theorem sameTimers_of_next {s d t : State} (h : (.next d : Result) = .next t) (hd : sameTimers s d) :
    sameTimers s t :=
  Host.Outcome.next.inj h ▸ hd

/-- An instruction that checks before it writes keeps the timers when its effect does: a raise has no other. -/
theorem sameTimers_of_checked {c : Option FatalError} {s d t : State} (h : checked c s d = .next t)
    (hd : sameTimers s d) : sameTimers s t := by
  obtain ⟨-, rfl⟩ | ⟨e, -, rfl⟩ := checked_cases h
  · exact hd
  · exact ⟨rfl, rfl⟩

/-- The key wait (R98) writes a register or `WAIT`, no timer. -/
theorem execLdVxK_sameTimers {x : Reg} {s t : State} (h : execLdVxK x s = .next t) : sameTimers s t := by
  unfold execLdVxK at h
  split at h <;> exact sameTimers_of_next h ⟨rfl, rfl⟩

/-- The Blocked tick (R99) writes a register, `pc` and `WAIT`, no timer. -/
theorem blockedTick_sameTimers {x : Reg} {s t : State} (h : blockedTick x s = .next t) : sameTimers s t := by
  obtain ⟨-, rfl⟩ | ⟨k, -, rfl⟩ := blockedTick_cases h <;> exact ⟨rfl, rfl⟩

/-! ### Instructions and ticks -/

/-- Every instruction but `Fx15`, with its one write of DT, and `Fx18`, with its one write of ST, keeps both
timers. -/
theorem exec_timers {i : Instr} {s t : State} (h : exec i s = .next t) :
    sameTimers s t ∨ (∃ x, i = .ldDtVx x ∧ t = s.advance.setDt (s.reg x)) ∨
      ∃ x, i = .ldStVx x ∧ t = s.advance.setSt (s.reg x) := by
  cases i with
  | ldDtVx x => exact .inr (.inl ⟨x, rfl, (Host.Outcome.next.inj h).symm⟩)
  | ldStVx x => exact .inr (.inr ⟨x, rfl, (Host.Outcome.next.inj h).symm⟩)
  | ldVxK x => exact .inl (execLdVxK_sameTimers h)
  | ret | call | drw | skp | sknp | ldF | ldB | storeRegs | loadRegs =>
    exact .inl (sameTimers_of_checked h (by simp [sameTimers]))
  | _ => exact .inl (sameTimers_of_next h (by simp [sameTimers]))

/-- Every tick but that of a Ready engine at an `Fx15` or an `Fx18` keeps both timers. -/
theorem step_timers {s t : State} (h : step s = .next t) :
    sameTimers s t ∨
      (s.isReady ∧ ∃ x, decodeWord s.opcode = some (.ldDtVx x) ∧ t = s.advance.setDt (s.reg x)) ∨
      (s.isReady ∧ ∃ x, decodeWord s.opcode = some (.ldStVx x) ∧ t = s.advance.setSt (s.reg x)) := by
  obtain ⟨_, _, rfl⟩ | ⟨x, _, _, hb⟩ | ⟨_, _, _, rfl⟩ | ⟨_, _, _, _, rfl⟩ | ⟨hh, hw, _, i, hi, hx⟩ :=
    step_cases h
  · exact .inl ⟨rfl, rfl⟩
  · exact .inl (blockedTick_sameTimers hb)
  · exact .inl ⟨rfl, rfl⟩
  · exact .inl ⟨rfl, rfl⟩
  · obtain hsame | ⟨x, rfl, ht⟩ | ⟨x, rfl, ht⟩ := exec_timers hx
    · exact .inl hsame
    · exact .inr (.inl ⟨⟨hh, hw⟩, x, hi, ht⟩)
    · exact .inr (.inr ⟨⟨hh, hw⟩, x, hi, ht⟩)

/-- A timer counted down is one less, and 0 stays 0 (R120). -/
theorem countDown_toNat (b : Byte) : (countDown b).toNat = b.toNat - 1 := by
  unfold countDown
  split
  · next hpos => exact BitVec.toNat_sub_of_le (BitVec.le_def.2 hpos)
  · next hzero => omega

/-- Settles O18: a tick writes DT only as `Fx15` and ST only as `Fx18`, by the cases of a step; a decrement
takes each timer down on its own, by `countDown`. -/
theorem timersChangeOnlyAsStated : Obligations.TimersChangeOnlyAsStated := by
  unfold Obligations.TimersChangeOnlyAsStated
  refine ⟨fun s t h => ?_, fun s => ⟨countDown_toNat s.dt, countDown_toNat s.st⟩⟩
  obtain ⟨hdt, hst⟩ | ⟨hready, x, hword, rfl⟩ | ⟨hready, x, hword, rfl⟩ := step_timers h
  · exact ⟨.inl hdt, .inl hst⟩
  · exact ⟨.inr ⟨hready, x, hword, rfl⟩, .inl rfl⟩
  · exact ⟨.inl rfl, .inr ⟨hready, x, hword, rfl⟩⟩

end Sys2Proof.Machine
end

section
/-! Big-endian opcode words (spec/20_memory.md R41): the bytes a fetch reads are the fields of its word. -/

namespace Sys2Proof

/-- No carry is lost: the value of two bytes fits a word. -/
theorem toNat_wordOfBytes (hi lo : Byte) : (wordOfBytes hi lo).toNat = hi.toNat * 256 + lo.toNat := by
  have hhi := hi.isLt
  have hlo := lo.isLt
  rw [wordOfBytes, BitVec.toNat_ofNat]
  omega

/-- `op` is the high nibble of the first byte. -/
theorem bits_op_wordOfBytes (hi lo : Byte) : bits (wordOfBytes hi lo) 15 12 = hi.toNat / 16 := by
  have hhi := hi.isLt
  have hlo := lo.isLt
  rw [bits, toNat_wordOfBytes]
  omega

/-- `x` is the low nibble of the first byte. -/
theorem bits_x_wordOfBytes (hi lo : Byte) : bits (wordOfBytes hi lo) 11 8 = hi.toNat % 16 := by
  have hlo := lo.isLt
  rw [bits, toNat_wordOfBytes]
  omega

/-- `nn` is the second byte. -/
theorem bits_nn_wordOfBytes (hi lo : Byte) : bits (wordOfBytes hi lo) 7 0 = lo.toNat := by
  have hlo := lo.isLt
  rw [bits, toNat_wordOfBytes]
  omega

end Sys2Proof

namespace Sys2Proof.Machine

/-- Settles O6: a fetch in range reads the opcode word at `pc`, whose value and fields are those of its two
bytes in big-endian order. -/
theorem fetchIsBigEndian : Obligations.FetchIsBigEndian := by
  unfold Obligations.FetchIsBigEndian
  intro s hpc
  exact ⟨s.opcode, fetch_ok s hpc, toNat_wordOfBytes _ _, bits_op_wordOfBytes _ _, bits_x_wordOfBytes _ _,
    bits_nn_wordOfBytes _ _⟩

end Sys2Proof.Machine
end

section
/-! The opcode table (spec/30_encoding.md R60): the decoder's switches on the fields of a word and the masks of
the table's rows pick out the same words. -/

namespace Sys2Proof

/-! ### What the four masks of the table say of a word's fields -/

/-- The rows that fix `op` alone (formats `NNN`, `XNN` and `XYN`). -/
theorem matchesRow_F000 (w pat : Word) :
    matchesRow w (0xF000, pat) = true ↔ bits w 15 12 = pat.toNat / 4096 ∧ pat.toNat % 4096 = 0 := by
  have hw := w.isLt
  rw [matchesRow_iff, toNat_and_F000, bits]
  omega

/-- The rows that fix `op` and `n` (format `XY`). -/
theorem matchesRow_F00F (w pat : Word) :
    matchesRow w (0xF00F, pat) = true ↔ bits w 15 12 = pat.toNat / 4096 ∧ fieldN w = pat.toNat % 4096 := by
  have hw := w.isLt
  rw [matchesRow_iff, toNat_and_F00F, fieldN, bits, bits]
  omega

/-- The rows that fix `op` and `nn` (format `X`). -/
theorem matchesRow_F0FF (w pat : Word) :
    matchesRow w (0xF0FF, pat) = true ↔ bits w 15 12 = pat.toNat / 4096 ∧ bits w 7 0 = pat.toNat % 4096 := by
  have hw := w.isLt
  rw [matchesRow_iff, toNat_and_F0FF, bits, bits]
  omega

/-- The rows that fix the whole word (`CLS` and `RET`). -/
theorem matchesRow_FFFF (w pat : Word) : matchesRow w (0xFFFF, pat) = true ↔ w = pat := by
  rw [matchesRow_iff, and_FFFF, BitVec.toNat_inj]

/-! ### A word that decodes matches its instruction's row -/

theorem matchesRow_of_decode0 {w : Word} {i : Instr} (h : decode0 w = some i) :
    matchesRow w (rowOf i) = true := by
  unfold decode0 at h
  split at h
  · next hcls => cases h; exact (matchesRow_FFFF _ _).2 hcls
  · split at h
    · next hret => cases h; exact (matchesRow_FFFF _ _).2 hret
    · cases h

theorem matchesRow_of_decode5 {w : Word} {i : Instr} (hop : bits w 15 12 = 5) (h : decode5 w = some i) :
    matchesRow w (rowOf i) = true := by
  unfold decode5 at h
  split at h
  · next hn => cases h; exact (matchesRow_F00F _ _).2 ⟨hop, hn⟩
  · cases h

theorem matchesRow_of_decode8 {w : Word} {i : Instr} (hop : bits w 15 12 = 8) (h : decode8 w = some i) :
    matchesRow w (rowOf i) = true := by
  unfold decode8 at h
  split at h
  case h_10 => cases h
  all_goals next hn => cases h; exact (matchesRow_F00F _ _).2 ⟨hop, hn⟩

theorem matchesRow_of_decode9 {w : Word} {i : Instr} (hop : bits w 15 12 = 9) (h : decode9 w = some i) :
    matchesRow w (rowOf i) = true := by
  unfold decode9 at h
  split at h
  · next hn => cases h; exact (matchesRow_F00F _ _).2 ⟨hop, hn⟩
  · cases h

theorem matchesRow_of_decodeE {w : Word} {i : Instr} (hop : bits w 15 12 = 0xE) (h : decodeE w = some i) :
    matchesRow w (rowOf i) = true := by
  unfold decodeE at h
  split at h
  case h_3 => cases h
  all_goals next hnn => cases h; exact (matchesRow_F0FF _ _).2 ⟨hop, hnn⟩

theorem matchesRow_of_decodeF {w : Word} {i : Instr} (hop : bits w 15 12 = 0xF) (h : decodeF w = some i) :
    matchesRow w (rowOf i) = true := by
  unfold decodeF at h
  split at h
  case h_10 => cases h
  all_goals next hnn => cases h; exact (matchesRow_F0FF _ _).2 ⟨hop, hnn⟩

/-- The primary switch fixes `op`; a row of mask `0xF000` asks no more, the others are met by their secondary
switch. -/
theorem matchesRow_of_decodeWord {w : Word} {i : Instr} (h : decodeWord w = some i) :
    matchesRow w (rowOf i) = true := by
  unfold decodeWord at h
  split at h
  case h_1 => exact matchesRow_of_decode0 h
  case h_6 hop => exact matchesRow_of_decode5 hop h
  case h_9 hop => exact matchesRow_of_decode8 hop h
  case h_10 hop => exact matchesRow_of_decode9 hop h
  case h_15 hop => exact matchesRow_of_decodeE hop h
  case h_16 hop => exact matchesRow_of_decodeF hop h
  case h_17 => cases h
  all_goals next hop => cases h; exact (matchesRow_F000 _ _).2 ⟨hop, rfl⟩

/-! ### A word that matches an instruction's row decodes to an instruction of that row -/

theorem decodeWord_eq_decode8 {w : Word} (hop : bits w 15 12 = 8) : decodeWord w = decode8 w := by
  simp only [decodeWord, hop]

theorem decodeWord_eq_decodeE {w : Word} (hop : bits w 15 12 = 0xE) : decodeWord w = decodeE w := by
  simp only [decodeWord, hop]

theorem decodeWord_eq_decodeF {w : Word} (hop : bits w 15 12 = 0xF) : decodeWord w = decodeF w := by
  simp only [decodeWord, hop]

/-- By the mask of the row: it fixes the fields the switches read, and nothing of the operands. -/
theorem map_rowOf_decodeWord {w : Word} {i : Instr} (h : matchesRow w (rowOf i) = true) :
    (decodeWord w).map rowOf = some (rowOf i) := by
  cases i with
  | cls | ret =>
    rw [(matchesRow_FFFF _ _).1 h]
    rfl
  | jp | call | seImm | sneImm | ldImm | addImm | ldI | jpV0 | rnd | drw =>
    obtain ⟨hop, -⟩ := (matchesRow_F000 _ _).1 h
    rw [decodeWord, hop]
    rfl
  | seReg | sneReg =>
    obtain ⟨hop, hn⟩ := (matchesRow_F00F _ _).1 h
    rw [decodeWord, hop]
    exact congrArg (Option.map rowOf) (if_pos hn)
  | ldReg | orReg | andReg | xorReg | addReg | subReg | shr | subnReg | shl =>
    obtain ⟨hop, hn⟩ := (matchesRow_F00F _ _).1 h
    rw [decodeWord_eq_decode8 hop, decode8, hn]
    rfl
  | skp | sknp =>
    obtain ⟨hop, hnn⟩ := (matchesRow_F0FF _ _).1 h
    rw [decodeWord_eq_decodeE hop, decodeE, hnn]
    rfl
  | ldVxDt | ldVxK | ldDtVx | ldStVx | addI | ldF | ldB | storeRegs | loadRegs =>
    obtain ⟨hop, hnn⟩ := (matchesRow_F0FF _ _).1 h
    rw [decodeWord_eq_decodeF hop, decodeF, hnn]
    rfl

/-! ### The table's rows are those of the instructions, each listed once -/

theorem rowOf_mem_opcodeRows (i : Instr) : rowOf i ∈ opcodeRows := by
  cases i <;> simp [opcodeRows, rowOf]

theorem exists_rowOf_of_mem_opcodeRows : ∀ row ∈ opcodeRows, ∃ i, rowOf i = row := by
  simp [opcodeRows]

theorem opcodeRows_nodup : opcodeRows.Nodup := by decide

theorem decodeWord_of_mem_opcodeRows {w : Word} {row : Word × Word} (hrow : row ∈ opcodeRows)
    (h : matchesRow w row = true) : ∃ i, decodeWord w = some i ∧ rowOf i = row := by
  obtain ⟨i, rfl⟩ := exists_rowOf_of_mem_opcodeRows row hrow
  exact Option.map_eq_some_iff.1 (map_rowOf_decodeWord h)

/-- No word matches two rows: both would be the row of the one instruction it decodes to. -/
theorem eq_of_matchesRow_of_matchesRow {w : Word} {r q : Word × Word} (hr : r ∈ opcodeRows)
    (hq : q ∈ opcodeRows) (hwr : matchesRow w r = true) (hwq : matchesRow w q = true) : r = q := by
  obtain ⟨i, hi, rfl⟩ := decodeWord_of_mem_opcodeRows hr hwr
  obtain ⟨j, hj, rfl⟩ := decodeWord_of_mem_opcodeRows hq hwq
  rw [Option.some.inj (hi.symm.trans hj)]

/-- A word that matches no row is `Unknown` (R66). -/
theorem decodeWord_eq_none {w : Word} (h : ∀ row ∈ opcodeRows, matchesRow w row = false) :
    decodeWord w = none := by
  refine Option.eq_none_iff_forall_ne_some.2 fun i hi => ?_
  have hno := h (rowOf i) (rowOf_mem_opcodeRows i)
  rw [matchesRow_of_decodeWord hi] at hno
  cases hno

end Sys2Proof

namespace Sys2Proof.Machine

/-- Settles O3: the decoder and the table agree word by word in both directions; since decoding is a function,
the rows, which are distinct, are disjoint. -/
theorem decodeFollowsOpcodeTable : Obligations.DecodeFollowsOpcodeTable := by
  unfold Obligations.DecodeFollowsOpcodeTable
  refine ⟨rfl, fun w i h => ⟨matchesRow_of_decodeWord h, rowOf_mem_opcodeRows i⟩,
    fun w row hrow h => decodeWord_of_mem_opcodeRows hrow h, ?disjoint, ?unknown⟩
  case disjoint =>
    exact opcodeRows_nodup.imp_of_mem fun hr hq hne w ⟨hwr, hwq⟩ =>
      hne (eq_of_matchesRow_of_matchesRow hr hq hwr hwq)
  case unknown =>
    rintro s ⟨hhalt, hwait⟩ hpc hno
    exact ⟨_, (step_ready hhalt hwait).trans (readyTick_unknown hpc (decodeWord_eq_none hno)), rfl⟩

end Sys2Proof.Machine
end

section
/-! `CLS` (spec/40_flow.md section 2, R72): every pixel goes dark, and only `pc` moves besides. -/

namespace Sys2Proof.Machine

@[simp] theorem State.setFb_pixel (s : State) (f : Framebuffer) (px : Fin 64) (py : Fin 32) :
    (s.setFb f).pixel px py = pixelOf f px py := rfl

/-- The cleared framebuffer has no pixel on (R72). -/
@[simp] theorem pixelOf_clearFramebuffer (px : Fin 64) (py : Fin 32) :
    pixelOf clearFramebuffer px py = false := by
  rw [pixelOf, clearFramebuffer, Vector.getElem_replicate]

theorem exec_cls (s : State) : exec .cls s = .next (s.advance.setFb clearFramebuffer) := rfl

/-- Settles O28: the state after `CLS` is the advanced one with the framebuffer replaced, so its pixels are
those of the cleared framebuffer, and the rest is what the two updates leave unchanged. -/
theorem clsClearsTheScreen : Obligations.ClsClearsTheScreen := by
  unfold Obligations.ClsClearsTheScreen
  refine ⟨by decide, fun s => ⟨s.advance.setFb clearFramebuffer, exec_cls s, ?pixels, ?pc, ?frame⟩⟩
  case pixels =>
    intro px py
    rw [State.setFb_pixel, pixelOf_clearFramebuffer]
  case pc => rw [State.setFb_pc, State.advance_pc]
  case frame =>
    simp [sameRegsBut, sameBytes, sameStack, sameTimers, sameRest, sameKeys, sameLatches]

end Sys2Proof.Machine
end

section
/-! The register skips (spec/41_skip.md, R77 to R80): each is a jump by 4 or by 2, and a jump writes `pc` alone. -/

namespace Sys2Proof.Machine

/-- A write of `pc` is in the frame of every instruction that writes no register. -/
theorem onlyRegs_jump (s : State) (target : Word) : onlyRegs [] s (s.jump target) := by
  simp [onlyRegs, sameRegsBut, sameBytes, samePixels, sameStack, sameTimers, sameRest, sameKeys, sameLatches]

/-- The fetch advance and a skip together are one write of `pc`, from the state alone: no byte after the
instruction is read. -/
theorem State.skipIf_advance (s : State) (p : Prop) [Decidable p] :
    s.advance.skipIf (decide p) = s.jump (s.pc + if p then 4 else 2) := by
  rw [State.skipIf_eq]
  by_cases h : p
  · simp [State.advance, State.jump, h, BitVec.add_assoc]
  · simp [State.advance, State.jump, h]

/-- What the four skips share: one that ends in the skip on `p` writes nothing but `pc`, by 4 or by 2. -/
theorem exists_skip {r : Result} {s : State} {p : Prop} [Decidable p]
    (h : r = .next (s.advance.skipIf (decide p))) :
    ∃ t, r = .next t ∧ onlyRegs [] s t ∧ t.pc = s.pc + if p then 4 else 2 := by
  rw [State.skipIf_advance] at h
  exact ⟨_, h, onlyRegs_jump s _, rfl⟩

theorem exec_seImm (x : Reg) (nn : Byte) (s : State) :
    exec (.seImm x nn) s = .next (s.advance.skipIf (decide (s.reg x = nn))) := rfl

theorem exec_sneImm (x : Reg) (nn : Byte) (s : State) :
    exec (.sneImm x nn) s = .next (s.advance.skipIf (decide (s.reg x ≠ nn))) := rfl

theorem exec_seReg (x y : Reg) (s : State) :
    exec (.seReg x y) s = .next (s.advance.skipIf (decide (s.reg x = s.reg y))) := rfl

theorem exec_sneReg (x y : Reg) (s : State) :
    exec (.sneReg x y) s = .next (s.advance.skipIf (decide (s.reg x ≠ s.reg y))) := rfl

/-- Settles O35: each of the four ends in a skip on its own condition, which is all they differ in. -/
theorem skipsAdvanceByFourOrTwo : Obligations.SkipsAdvanceByFourOrTwo := by
  unfold Obligations.SkipsAdvanceByFourOrTwo
  intro s x y nn
  exact ⟨exists_skip (exec_seImm x nn s), exists_skip (exec_sneImm x nn s), exists_skip (exec_seReg x y s),
    exists_skip (exec_sneReg x y s)⟩

end Sys2Proof.Machine
end

section
/-! The flag-producing arithmetic (spec/42_arithmetic.md, R88, R89, R91): each instruction writes its result to
`V[x]` and then its flag to VF (R15), and these two writes are all it does besides the fetch advance. -/

namespace Sys2Proof.Machine

/-! ### The two writes of a flag-producing instruction -/

/-- VF reads as the flag also when `x` is VF: the flag is written last (R15). -/
theorem State.reg_vf_resultThenFlag (s : State) (x : Reg) (b : Byte) (f : Bool) :
    (s.resultThenFlag x b f).reg vf = flagByte f := by
  rw [State.reg_resultThenFlag, if_pos rfl]

theorem State.reg_dest_resultThenFlag (s : State) {x : Reg} (b : Byte) (f : Bool) (h : x ≠ vf) :
    (s.resultThenFlag x b f).reg x = b := by
  rw [State.reg_resultThenFlag, if_neg h, if_pos rfl]

theorem onlyRegs_resultThenFlag (s : State) (x : Reg) (b : Byte) (f : Bool) :
    onlyRegs [x, vf] s (s.advance.resultThenFlag x b f) := by
  refine ⟨?regs, rfl, fun _ => rfl, fun _ _ => rfl, ⟨rfl, fun _ => rfl⟩, ⟨rfl, rfl⟩, fun _ => rfl, ⟨rfl, rfl⟩, rfl⟩
  case regs =>
    intro r hr
    have ⟨hx, hvf⟩ : r ≠ x ∧ r ≠ vf := by simpa using hr
    rw [State.reg_resultThenFlag, if_neg hvf, if_neg hx, State.advance_reg]

/-- What the flag-producing instructions share: one that ends in the two writes leaves the result `n` in a
destination other than VF, the truth of `p` in VF, and moves nothing else but `pc`. -/
theorem exists_resultThenFlag {res : Result} {s : State} {x : Reg} {b : Byte} {f : Bool} {n : Nat} {p : Prop}
    [Decidable p] (h : res = .next (s.advance.resultThenFlag x b f)) (hb : b.toNat = n) (hf : f = true ↔ p) :
    ∃ t, res = .next t ∧ (x ≠ vf → (t.reg x).toNat = n) ∧ (t.reg vf).toNat = (if p then 1 else 0) ∧
      t.pc = s.pc + 2 ∧ onlyRegs [x, vf] s t := by
  refine ⟨_, h, fun hx => ?dest, ?flag, rfl, onlyRegs_resultThenFlag s x b f⟩
  case dest => rw [State.reg_dest_resultThenFlag _ b f hx, hb]
  case flag => rw [State.reg_vf_resultThenFlag, flagByte_toNat]; exact if_congr hf rfl rfl

/-! ### Results and flags as naturals -/

theorem carry_iff (a b : Byte) : carry a b = true ↔ a.toNat + b.toNat > 255 := decide_eq_true_iff

theorem notBorrow_iff (a b : Byte) : notBorrow a b = true ↔ a.toNat ≥ b.toNat := decide_eq_true_iff

/-- The wrapped difference, with the 256 borrowed by the minuend (R81). -/
theorem byte_toNat_sub (a b : Byte) : (a - b).toNat = (a.toNat + 256 - b.toNat) % 256 := by
  have hb := b.isLt
  rw [BitVec.toNat_sub]
  omega

/-! ### The instructions -/

theorem exec_addReg (x y : Reg) (s : State) : exec (.addReg x y) s =
    .next (s.advance.resultThenFlag x (s.reg x + s.reg y) (carry (s.reg x) (s.reg y))) := rfl

theorem exec_subReg (x y : Reg) (s : State) : exec (.subReg x y) s =
    .next (s.advance.resultThenFlag x (s.reg x - s.reg y) (notBorrow (s.reg x) (s.reg y))) := rfl

theorem exec_subnReg (x y : Reg) (s : State) : exec (.subnReg x y) s =
    .next (s.advance.resultThenFlag x (s.reg y - s.reg x) (notBorrow (s.reg y) (s.reg x))) := rfl

/-- Settles O39: `ADD Vx,Vy` ends in the two writes, of the wrapped sum and of the carry. -/
theorem addSetsCarryInVf : Obligations.AddSetsCarryInVf := by
  unfold Obligations.AddSetsCarryInVf
  intro s x y
  exact exists_resultThenFlag (exec_addReg x y s) (BitVec.toNat_add _ _) (carry_iff _ _)

/-- Settles O40: `SUB` and `SUBN` end in the two writes, of the wrapped difference and of the absence of a
borrow, with the operands in opposite order. -/
theorem subtractionsSetNotBorrowInVf : Obligations.SubtractionsSetNotBorrowInVf := by
  unfold Obligations.SubtractionsSetNotBorrowInVf
  intro s x y
  exact ⟨exists_resultThenFlag (exec_subReg x y s) (byte_toNat_sub _ _) (notBorrow_iff _ _),
    exists_resultThenFlag (exec_subnReg x y s) (byte_toNat_sub _ _) (notBorrow_iff _ _)⟩

end Sys2Proof.Machine
end

section
/-! `RND` (spec/43_random.md, R93): the draw masked by `nn`, the draw itself any byte. -/

namespace Sys2Proof.Machine

theorem exec_rnd (x : Reg) (nn : Byte) (s : State) :
    exec (.rnd x nn) s = .next (s.advance.drawn.setReg x (Config.drawByte s.draws &&& nn)) := rfl

/-- A masked byte has none of the bits its mask clears, whatever the byte. -/
theorem and_mask_and_not_mask (r nn : Byte) : (r &&& nn) &&& ~~~nn = 0 := by
  rw [BitVec.and_assoc, BitVec.and_not_self]
  exact BitVec.and_zero

/-- Settles O43: `V[x]` is written with the next draw masked by `nn`, so what holds of every masked byte holds
of it; the rest is what the fetch advance, the count of the draw and the write of `V[x]` leave unchanged. -/
theorem randomByteIsMasked : Obligations.RandomByteIsMasked := by
  unfold Obligations.RandomByteIsMasked
  intro s x nn
  have hdest : (s.advance.drawn.setReg x (Config.drawByte s.draws &&& nn)).reg x =
      Config.drawByte s.draws &&& nn := by rw [State.reg_setReg, if_pos rfl]
  refine ⟨_, Config.drawByte s.draws, exec_rnd x nn s, hdest, ?cleared, ?emptyMask, ?fullMask, rfl, ?regs, rfl,
    fun _ => rfl, fun _ _ => rfl, ⟨rfl, fun _ => rfl⟩, ⟨rfl, rfl⟩, fun _ => rfl, ⟨rfl, rfl⟩⟩
  case cleared => rw [hdest, and_mask_and_not_mask]
  case emptyMask =>
    rintro rfl
    exact hdest.trans BitVec.and_zero
  case fullMask =>
    rintro rfl
    exact hdest.trans BitVec.and_allOnes
  case regs =>
    intro r hr
    have hrx : r ≠ x := by simpa using hr
    rw [State.reg_setReg, if_neg hrx, State.drawn_reg, State.advance_reg]

end Sys2Proof.Machine
end

section
/-! The delay timer (spec/46_timers_index_memory.md section 1, R100 and R101): one byte moves between `V[x]` and
DT, and only `pc` moves besides. -/

namespace Sys2Proof.Machine

/-- The fetch advance and the write of one register are in the frame of an instruction that writes it. -/
theorem onlyRegs_setReg (s : State) (x : Reg) (b : Byte) : onlyRegs [x] s (s.advance.setReg x b) := by
  refine ⟨?regs, rfl, fun _ => rfl, fun _ _ => rfl, ⟨rfl, fun _ => rfl⟩, ⟨rfl, rfl⟩, fun _ => rfl, ⟨rfl, rfl⟩, rfl⟩
  case regs =>
    intro r hr
    have hrx : r ≠ x := by simpa using hr
    rw [State.reg_setReg, if_neg hrx, State.advance_reg]

theorem exec_ldVxDt (x : Reg) (s : State) : exec (.ldVxDt x) s = .next (s.advance.setReg x s.dt) := rfl

theorem exec_ldDtVx (x : Reg) (s : State) : exec (.ldDtVx x) s = .next (s.advance.setDt (s.reg x)) := rfl

/-- Settles O51: `LD Vx,DT` ends in one register write and `LD DT,Vx` in one write of DT, of the byte read before
the tick; the rest is what that write and the fetch advance leave unchanged. -/
theorem delayTimerMovesOneByte : Obligations.DelayTimerMovesOneByte := by
  unfold Obligations.DelayTimerMovesOneByte
  intro s x
  refine ⟨⟨_, exec_ldVxDt x s, ?dest, ?readPc, onlyRegs_setReg s x s.dt⟩,
    ⟨_, exec_ldDtVx x s, ?dt, ?st, ?writePc, ?frame⟩⟩
  case dest => rw [State.reg_setReg, if_pos rfl]
  case readPc => rw [State.setReg_pc, State.advance_pc]
  case dt => rw [State.setDt_dt]
  case st => rw [State.setDt_st, State.advance_st]
  case writePc => rw [State.setDt_pc, State.advance_pc]
  case frame =>
    simp [sameRegsBut, sameBytes, samePixels, sameStack, sameRest, sameKeys, sameLatches]

end Sys2Proof.Machine
end

section
/-! `decrement_timers` (spec/60_exceptions.md section 3, R120): a host operation whose two writes are one per timer,
each of a count one lower and floored at 0. -/

namespace Sys2Proof.Machine

theorem makeMove_decrementTimers (s : State) :
    makeMove .decrementTimers s = .next ((s.setDt (countDown s.dt)).setSt (countDown s.st)) := rfl

/-- Settles O25: the move is answered in every engine state, since it reads neither latch; `countDown` gives the
two timers, and the rest is what a write of DT and one of ST leave unchanged. -/
theorem decrementTimersFloorsAtZero : Obligations.DecrementTimersFloorsAtZero := by
  unfold Obligations.DecrementTimersFloorsAtZero
  intro s
  refine ⟨_, makeMove_decrementTimers s, ?dt, ?st, ?frame⟩
  case dt => rw [State.setSt_dt, State.setDt_dt, countDown_toNat]
  case st => rw [State.setSt_st, countDown_toNat]
  case frame =>
    simp [sameRegsBut, sameBytes, samePixels, sameStack, sameRest, sameKeys, sameLatches]

end Sys2Proof.Machine
end

section
/-! The limits of the call stack (spec/60_exceptions.md R110, R111): what `CALL` and `RET` check before they write,
and the raise when the check fails. -/

namespace Sys2Proof.Machine

/-- The push of a full stack is the one that overflows (R27). -/
theorem State.pushCheck_full {s : State} (h : s.sp.val = 16) : s.pushCheck = some .stackOverflow := if_pos h

/-- The pop of an empty stack is the one that underflows (R28). -/
theorem State.popCheck_empty {s : State} (h : s.sp.val = 0) : s.popCheck = some .stackUnderflow := if_pos h

/-- `CALL` checks the push before its writes. -/
theorem exec_call (nnn : Addr) (s : State) : exec (.call nnn) s =
    checked s.pushCheck s ((s.advance.push s.advance.pc).jump (wideAddr nnn)) := rfl

/-- `RET` checks the pop before its writes. -/
theorem exec_ret (s : State) : exec .ret s = checked s.popCheck s (s.advance.drop.jump s.top) := rfl

/-- What the two share: an instruction whose check fails latches the error, returns it and leaves the call stack
as it was, whatever its effect `d` would have been (R114). -/
theorem exists_stackRaise {r : Result} {c : Option FatalError} {e : FatalError} {s d : State}
    (hr : r = checked c s d) (hc : c = some e) :
    ∃ t, r = .next t ∧ t.halt = some e ∧ tickReturns t = .err e ∧ sameStack s t := by
  subst hc
  exact ⟨s.halted e, hr.trans (checked_some e s d), rfl, rfl, rfl, fun _ => rfl⟩

/-- Settles O32: at its limit each of the two fails its check, so its writes of the stack are not made. -/
theorem stackLimitsHaltTheEngine : Obligations.StackLimitsHaltTheEngine := by
  unfold Obligations.StackLimitsHaltTheEngine
  exact ⟨fun s nnn hfull => exists_stackRaise (exec_call nnn s) (State.pushCheck_full hfull),
    fun s hempty => exists_stackRaise (exec_ret s) (State.popCheck_empty hempty)⟩

end Sys2Proof.Machine
end

section
/-! Encoding and decoding are inverse to each other (spec/30_encoding.md sections 1 and 2): the fields of a word
built from fields are those fields, and a word is the one its fields build. -/

namespace Sys2Proof

/-! ### The fields of a word built from fields -/

section Fields

variable (op : Nat) (x y : Reg) (hop : op < 16)
include hop

theorem op_wordXNN {nn : Nat} (hnn : nn < 256) : bits (wordXNN op x nn) 15 12 = op := by
  have hx := x.isLt
  rw [bits, toNat_wordXNN op x nn hop hnn]
  omega

theorem fieldX_wordXNN {nn : Nat} (hnn : nn < 256) : fieldX (wordXNN op x nn) = x := by
  have hx := x.isLt
  refine Fin.ext ?_
  rw [fieldX, bits, toNat_wordXNN op x nn hop hnn, Fin.val_ofNat]
  omega

theorem nn_wordXNN {nn : Nat} (hnn : nn < 256) : bits (wordXNN op x nn) 7 0 = nn := by
  rw [bits, toNat_wordXNN op x nn hop hnn]
  omega

theorem fieldNN_wordXNN (nn : Byte) : fieldNN (wordXNN op x nn.toNat) = nn := by
  rw [fieldNN, nn_wordXNN op x hop nn.isLt, BitVec.ofNat_toNat, BitVec.setWidth_eq]

theorem op_wordXYN {n : Nat} (hn : n < 16) : bits (wordXYN op x y n) 15 12 = op := by
  have hx := x.isLt
  have hy := y.isLt
  rw [bits, toNat_wordXYN op x y n hop hn]
  omega

theorem fieldX_wordXYN {n : Nat} (hn : n < 16) : fieldX (wordXYN op x y n) = x := by
  have hx := x.isLt
  have hy := y.isLt
  refine Fin.ext ?_
  rw [fieldX, bits, toNat_wordXYN op x y n hop hn, Fin.val_ofNat]
  omega

theorem fieldY_wordXYN {n : Nat} (hn : n < 16) : fieldY (wordXYN op x y n) = y := by
  have hy := y.isLt
  refine Fin.ext ?_
  rw [fieldY, bits, toNat_wordXYN op x y n hop hn, Fin.val_ofNat]
  omega

theorem fieldN_wordXYN {n : Nat} (hn : n < 16) : fieldN (wordXYN op x y n) = n := by
  rw [fieldN, bits, toNat_wordXYN op x y n hop hn]
  omega

theorem op_wordNNN (nnn : Addr) : bits (wordNNN op nnn) 15 12 = op := by
  have hnnn := nnn.isLt
  rw [bits, toNat_wordNNN op nnn hop]
  omega

theorem fieldNNN_wordNNN (nnn : Addr) : fieldNNN (wordNNN op nnn) = nnn := by
  have hnnn := nnn.isLt
  refine BitVec.eq_of_toNat_eq ?_
  rw [fieldNNN, bits, toNat_wordNNN op nnn hop, BitVec.toNat_ofNat]
  omega

end Fields

/-! ### Decoding an encoding -/

/-- By the format of the encoding: the switches read the fields it fixes, the operands are its other fields. -/
theorem decodeWord_encode {i : Instr} (hwf : i.wellFormed = true) : decodeWord (encode i) = some i := by
  cases i with
  | cls | ret => rfl
  | jp nnn | call nnn | ldI nnn | jpV0 nnn =>
    simp [encode, decodeWord, op_wordNNN, fieldNNN_wordNNN]
  | seImm x nn | sneImm x nn | ldImm x nn | addImm x nn | rnd x nn =>
    simp [encode, decodeWord, op_wordXNN, fieldX_wordXNN, fieldNN_wordXNN, nn.isLt]
  | seReg x y => simp [encode, decodeWord, decode5, op_wordXYN, fieldN_wordXYN, fieldX_wordXYN, fieldY_wordXYN]
  | sneReg x y => simp [encode, decodeWord, decode9, op_wordXYN, fieldN_wordXYN, fieldX_wordXYN, fieldY_wordXYN]
  | ldReg x y | orReg x y | andReg x y | xorReg x y | addReg x y | subReg x y | shr x y | subnReg x y | shl x y =>
    simp [encode, decodeWord, decode8, op_wordXYN, fieldN_wordXYN, fieldX_wordXYN, fieldY_wordXYN]
  | drw x y n =>
    have hn : n < 16 := Nat.lt_succ_of_le (of_decide_eq_true hwf)
    simp [encode, decodeWord, op_wordXYN, fieldN_wordXYN, fieldX_wordXYN, fieldY_wordXYN, hn]
  | skp x | sknp x => simp [encode, decodeWord, decodeE, op_wordXNN, nn_wordXNN, fieldX_wordXNN]
  | ldVxDt x | ldVxK x | ldDtVx x | ldStVx x | addI x | ldF x | ldB x | storeRegs x | loadRegs x =>
    simp [encode, decodeWord, decodeF, op_wordXNN, nn_wordXNN, fieldX_wordXNN]

/-- The bytes of an encoding, whatever follows them, begin with its instruction (R41, R57). -/
theorem decodeBytes_encodeBytes {i : Instr} (hwf : i.wellFormed = true) (rest : List Byte) :
    decodeBytes (encodeBytes i ++ rest) = .ok (i, rest) := by
  simp only [encodeBytes, List.cons_append, List.nil_append, decodeBytes, Machine.wordOfBytes_split,
    decodeWord_encode hwf]

/-! ### Encoding a decoding -/

section Word

variable {w : Word} {op : Nat} (hop : bits w 15 12 = op)
include hop

theorem wordNNN_fields : wordNNN op (fieldNNN w) = w := by
  have hw := w.isLt
  refine BitVec.eq_of_toNat_eq ?_
  simp only [bits, wordNNN, fieldNNN, BitVec.toNat_ofNat] at hop ⊢
  omega

theorem wordX_fields {nn : Nat} (hnn : bits w 7 0 = nn) : wordXNN op (fieldX w) nn = w := by
  have hw := w.isLt
  refine BitVec.eq_of_toNat_eq ?_
  simp only [bits, wordXNN, fieldX, BitVec.toNat_ofNat, Fin.val_ofNat] at hop hnn ⊢
  omega

theorem wordXNN_fields : wordXNN op (fieldX w) (fieldNN w).toNat = w := by
  refine wordX_fields hop ?_
  rw [fieldNN, BitVec.toNat_ofNat, bits]
  omega

theorem wordXYN_fields {n : Nat} (hn : fieldN w = n) : wordXYN op (fieldX w) (fieldY w) n = w := by
  have hw := w.isLt
  refine BitVec.eq_of_toNat_eq ?_
  simp only [bits, wordXYN, fieldX, fieldY, fieldN, BitVec.toNat_ofNat, Fin.val_ofNat] at hop hn ⊢
  omega

end Word

theorem fieldN_lt (w : Word) : fieldN w < 16 := Nat.mod_lt _ (by decide)

theorem encode_of_decode0 {w : Word} {i : Instr} (h : decode0 w = some i) :
    i.wellFormed = true ∧ encode i = w := by
  unfold decode0 at h
  split at h
  · next hcls => cases h; exact ⟨rfl, hcls.symm⟩
  · split at h
    · next hret => cases h; exact ⟨rfl, hret.symm⟩
    · cases h

theorem encode_of_decode5 {w : Word} {i : Instr} (hop : bits w 15 12 = 5) (h : decode5 w = some i) :
    i.wellFormed = true ∧ encode i = w := by
  unfold decode5 at h
  split at h
  · next hn => cases h; exact ⟨rfl, wordXYN_fields hop hn⟩
  · cases h

theorem encode_of_decode8 {w : Word} {i : Instr} (hop : bits w 15 12 = 8) (h : decode8 w = some i) :
    i.wellFormed = true ∧ encode i = w := by
  unfold decode8 at h
  split at h
  case h_10 => cases h
  all_goals next hn => cases h; exact ⟨rfl, wordXYN_fields hop hn⟩

theorem encode_of_decode9 {w : Word} {i : Instr} (hop : bits w 15 12 = 9) (h : decode9 w = some i) :
    i.wellFormed = true ∧ encode i = w := by
  unfold decode9 at h
  split at h
  · next hn => cases h; exact ⟨rfl, wordXYN_fields hop hn⟩
  · cases h

theorem encode_of_decodeE {w : Word} {i : Instr} (hop : bits w 15 12 = 0xE) (h : decodeE w = some i) :
    i.wellFormed = true ∧ encode i = w := by
  unfold decodeE at h
  split at h
  case h_3 => cases h
  all_goals next hnn => cases h; exact ⟨rfl, wordX_fields hop hnn⟩

theorem encode_of_decodeF {w : Word} {i : Instr} (hop : bits w 15 12 = 0xF) (h : decodeF w = some i) :
    i.wellFormed = true ∧ encode i = w := by
  unfold decodeF at h
  split at h
  case h_10 => cases h
  all_goals next hnn => cases h; exact ⟨rfl, wordX_fields hop hnn⟩

/-- By the primary switch, which fixes `op`; the secondary switches fix what a format without operands in the
low byte or nibble leaves. -/
theorem encode_of_decodeWord {w : Word} {i : Instr} (h : decodeWord w = some i) :
    i.wellFormed = true ∧ encode i = w := by
  unfold decodeWord at h
  split at h
  case h_1 => exact encode_of_decode0 h
  case h_6 hop => exact encode_of_decode5 hop h
  case h_9 hop => exact encode_of_decode8 hop h
  case h_10 hop => exact encode_of_decode9 hop h
  case h_15 hop => exact encode_of_decodeE hop h
  case h_16 hop => exact encode_of_decodeF hop h
  case h_14 hop =>
    cases h
    exact ⟨decide_eq_true (Nat.le_of_lt_succ (fieldN_lt w)), wordXYN_fields hop rfl⟩
  case h_17 => cases h
  case h_2 hop | h_3 hop | h_11 hop | h_12 hop => cases h; exact ⟨rfl, wordNNN_fields hop⟩
  case h_4 hop | h_5 hop | h_7 hop | h_8 hop | h_13 hop => cases h; exact ⟨rfl, wordXNN_fields hop⟩

/-! ### The words no instruction has -/

theorem decode0_eq_none (w : Word) : decode0 w = none ↔ w ≠ 0x00E0 ∧ w ≠ 0x00EE := by
  unfold decode0
  split
  · next hcls => simp [hcls]
  · next hcls => split <;> simp_all

theorem decode5_eq_none (w : Word) : decode5 w = none ↔ bits w 3 0 ≠ 0 := by
  unfold decode5
  split <;> simp_all [fieldN]

theorem decode9_eq_none (w : Word) : decode9 w = none ↔ bits w 3 0 ≠ 0 := by
  unfold decode9
  split <;> simp_all [fieldN]

theorem decode8_eq_none (w : Word) :
    decode8 w = none ↔ bits w 3 0 ∈ [0x8, 0x9, 0xA, 0xB, 0xC, 0xD, 0xF] := by
  have hlt : bits w 3 0 < 16 := fieldN_lt w
  unfold decode8 fieldN
  split
  case h_10 => simp only [imp_false, List.mem_cons, List.not_mem_nil, or_false, true_iff] at *; omega
  all_goals next hn => simp [hn]

theorem decodeE_eq_none (w : Word) : decodeE w = none ↔ bits w 7 0 ∉ [0x9E, 0xA1] := by
  unfold decodeE
  split
  case h_3 => simp_all
  all_goals next hnn => simp [hnn]

theorem decodeF_eq_none (w : Word) :
    decodeF w = none ↔ bits w 7 0 ∉ [0x07, 0x0A, 0x15, 0x18, 0x1E, 0x29, 0x33, 0x55, 0x65] := by
  unfold decodeF
  split
  case h_10 => simp_all
  all_goals next hnn => simp [hnn]

/-- Settles O1: an encoding decodes to its instruction, format by format, and its two bytes join to it again. -/
theorem decodeOfEncodeIsIdentity : Obligations.DecodeOfEncodeIsIdentity := by
  unfold Obligations.DecodeOfEncodeIsIdentity
  exact fun i hwf => ⟨decodeWord_encode hwf, decodeBytes_encodeBytes hwf⟩

/-- Settles O2: the operands of a decoded instruction are the fields of its word, and what they leave of the
word is what the switches tested. -/
theorem encodeOfDecodeIsIdentity : Obligations.EncodeOfDecodeIsIdentity := by
  unfold Obligations.EncodeOfDecodeIsIdentity
  exact fun w i h => encode_of_decodeWord h

/-- Settles O4: the primary switch refuses no word by itself, so a word without an instruction is one that its
secondary switch refuses. -/
theorem unknownWordsAreTheListedClasses : Obligations.UnknownWordsAreTheListedClasses := by
  unfold Obligations.UnknownWordsAreTheListedClasses
  intro w
  unfold decodeWord
  split
  case h_1 hop => simp [hop, decode0_eq_none]
  case h_6 hop => simp [hop, decode5_eq_none]
  case h_9 hop => simp [hop, decode8_eq_none]
  case h_10 hop => simp [hop, decode9_eq_none]
  case h_15 hop => simp [hop, decodeE_eq_none]
  case h_16 hop => simp [hop, decodeF_eq_none]
  case h_17 =>
    have hlt : bits w 15 12 < 16 := Nat.mod_lt _ (by decide)
    exfalso
    simp only [imp_false] at *
    omega
  all_goals next hop => simp [hop]

/-- Settles O5: decoding computes, so each of the written words is run through it. -/
theorem writtenWordsDecodeAsListed : Obligations.WrittenWordsDecodeAsListed := by
  unfold Obligations.WrittenWordsDecodeAsListed
  decide

end Sys2Proof
end

section
/-! One equation for every instruction (spec/60_exceptions.md R114, R117): what it checks, and its effect when the
check finds nothing. What a tick can do is then said over the effects, and each component of the state has one
lemma that names the instructions whose effect writes it. -/

namespace Sys2Proof.Machine

/-! ### The key wait -/

/-- The key wait (R98): with a key pressed its number goes to `V[x]`, with none the target is latched. -/
def State.keyWait (s : State) (x : Reg) : State :=
  match s.pressed with
  | some k => s.advance.setReg x (keyByte k)
  | none => s.setWait (some x)

section KeyWait

variable (s : State) (x : Reg)

/-- The key wait does one of two things: it takes the least pressed key, or it latches its target. -/
theorem State.keyWait_cases : (∃ k, s.pressed = some k ∧ s.keyWait x = s.advance.setReg x (keyByte k)) ∨
    (s.pressed = none ∧ s.keyWait x = s.setWait (some x)) := by
  unfold State.keyWait
  cases s.pressed with
  | some k => exact .inl ⟨k, rfl, rfl⟩
  | none => exact .inr ⟨rfl, rfl⟩

@[simp] theorem State.keyWait_mem : (s.keyWait x).mem = s.mem := by
  unfold State.keyWait; cases s.pressed <;> rfl
@[simp] theorem State.keyWait_index : (s.keyWait x).index = s.index := by
  unfold State.keyWait; cases s.pressed <;> rfl
@[simp] theorem State.keyWait_stack : (s.keyWait x).stack = s.stack := by
  unfold State.keyWait; cases s.pressed <;> rfl
@[simp] theorem State.keyWait_sp : (s.keyWait x).sp = s.sp := by
  unfold State.keyWait; cases s.pressed <;> rfl
@[simp] theorem State.keyWait_fb : (s.keyWait x).fb = s.fb := by
  unfold State.keyWait; cases s.pressed <;> rfl
@[simp] theorem State.keyWait_keys : (s.keyWait x).keys = s.keys := by
  unfold State.keyWait; cases s.pressed <;> rfl
@[simp] theorem State.keyWait_halt : (s.keyWait x).halt = s.halt := by
  unfold State.keyWait; cases s.pressed <;> rfl
@[simp] theorem State.keyWait_draws : (s.keyWait x).draws = s.draws := by
  unfold State.keyWait; cases s.pressed <;> rfl

end KeyWait

end Sys2Proof.Machine

namespace Sys2Proof

open Machine

/-! ### Checks and effects -/

/-- What an instruction checks before it writes (R110, R111, R113). -/
def Instr.check : Instr → State → Option FatalError
  | .ret, s => s.popCheck
  | .call _, s => s.pushCheck
  | .drw _ _ n, s => s.spriteCheck n
  | .skp x, s | .sknp x, s => keyCheck (s.reg x)
  | .ldF x, s => glyphCheck (s.reg x)
  | .ldB _, s => memoryCheck (s.address 2)
  | .storeRegs x, s | .loadRegs x, s => memoryCheck (s.address x.val)
  | _, _ => none

/-- The state an instruction leaves when its check finds nothing: the skips as one write of `pc`, the shifts and
the block moves with the decided conventions. -/
def Instr.effect : Instr → State → State
  | .cls, s => s.advance.setFb clearFramebuffer
  | .ret, s => s.advance.drop.jump s.top
  | .jp nnn, s => s.advance.jump (wideAddr nnn)
  | .call nnn, s => (s.advance.push s.advance.pc).jump (wideAddr nnn)
  | .jpV0 nnn, s => s.advance.jump (wideAddr nnn + wideByte (s.reg 0))
  | .seImm x nn, s => s.jump (s.pc + if s.reg x = nn then 4 else 2)
  | .sneImm x nn, s => s.jump (s.pc + if s.reg x ≠ nn then 4 else 2)
  | .seReg x y, s => s.jump (s.pc + if s.reg x = s.reg y then 4 else 2)
  | .sneReg x y, s => s.jump (s.pc + if s.reg x ≠ s.reg y then 4 else 2)
  | .skp x, s => s.jump (s.pc + if s.keyAt (s.reg x) = true then 4 else 2)
  | .sknp x, s => s.jump (s.pc + if ¬ s.keyAt (s.reg x) = true then 4 else 2)
  | .ldImm x nn, s => s.advance.setReg x nn
  | .addImm x nn, s => s.advance.setReg x (s.reg x + nn)
  | .ldReg x y, s => s.advance.setReg x (s.reg y)
  | .orReg x y, s => s.advance.setReg x (s.reg x ||| s.reg y)
  | .andReg x y, s => s.advance.setReg x (s.reg x &&& s.reg y)
  | .xorReg x y, s => s.advance.setReg x (s.reg x ^^^ s.reg y)
  | .addReg x y, s => s.advance.resultThenFlag x (s.reg x + s.reg y) (carry (s.reg x) (s.reg y))
  | .subReg x y, s => s.advance.resultThenFlag x (s.reg x - s.reg y) (notBorrow (s.reg x) (s.reg y))
  | .subnReg x y, s => s.advance.resultThenFlag x (s.reg y - s.reg x) (notBorrow (s.reg y) (s.reg x))
  | .shr x y, s => shiftRight .vx x y s
  | .shl x y, s => shiftLeft .vx x y s
  | .rnd x nn, s => s.advance.drawn.setReg x (Config.drawByte s.draws &&& nn)
  | .drw x y n, s => (s.advance.setFb (s.drawing x y n).1).setFlag (s.drawing x y n).2
  | .ldVxK x, s => s.keyWait x
  | .ldVxDt x, s => s.advance.setReg x s.dt
  | .ldDtVx x, s => s.advance.setDt (s.reg x)
  | .ldStVx x, s => s.advance.setSt (s.reg x)
  | .ldI nnn, s => s.advance.setIndex (wideAddr nnn)
  | .addI x, s => s.advance.setIndex (s.index + wideByte (s.reg x))
  | .ldF x, s => s.advance.setIndex (glyphAddress (s.reg x))
  | .ldB x, s => s.advance.storeBytes (s.address 0) (bcdDigits (s.reg x))
  | .storeRegs x, s => s.advance.storeBytes (s.address 0) (s.regBlock x)
  | .loadRegs x, s => s.advance.loadRegBlock x (s.address 0)

/-! ### Which effects write a component -/

section Effect

variable (i : Instr) (s : State)

theorem Instr.effect_halt : (i.effect s).halt = s.halt := by
  cases i with
  | ldVxK x => exact s.keyWait_halt x
  | _ => rfl

theorem Instr.effect_keys : (i.effect s).keys = s.keys := by
  cases i with
  | ldVxK x => exact s.keyWait_keys x
  | _ => rfl

theorem Instr.effect_fb : (i.effect s).fb = s.fb ∨ i = .cls ∨ ∃ x y n, i = .drw x y n := by
  cases i with
  | cls => exact .inr (.inl rfl)
  | drw x y n => exact .inr (.inr ⟨x, y, n, rfl⟩)
  | ldVxK x => exact .inl (s.keyWait_fb x)
  | _ => exact .inl rfl

/-- A write of memory is that of a block of bytes from `I` up. -/
theorem Instr.effect_mem : (i.effect s).mem = s.mem ∨
    (∃ x, i = .ldB x ∧ (i.effect s).mem = s.mem.writeBytes (s.address 0) (bcdDigits (s.reg x))) ∨
    ∃ x, i = .storeRegs x ∧ (i.effect s).mem = s.mem.writeBytes (s.address 0) (s.regBlock x) := by
  cases i with
  | ldB x => exact .inr (.inl ⟨x, rfl, rfl⟩)
  | storeRegs x => exact .inr (.inr ⟨x, rfl, rfl⟩)
  | ldVxK x => exact .inl (s.keyWait_mem x)
  | _ => exact .inl rfl

theorem Instr.effect_stack : ((i.effect s).sp = s.sp ∧ (i.effect s).stack = s.stack) ∨ i = .ret ∨
    ∃ nnn, i = .call nnn := by
  cases i with
  | ret => exact .inr (.inl rfl)
  | call nnn => exact .inr (.inr ⟨nnn, rfl⟩)
  | ldVxK x => exact .inl ⟨s.keyWait_sp x, s.keyWait_stack x⟩
  | _ => exact .inl ⟨rfl, rfl⟩

theorem Instr.effect_index : (i.effect s).index = s.index ∨ (∃ nnn, i = .ldI nnn) ∨ (∃ x, i = .addI x) ∨
    ∃ x, i = .ldF x := by
  cases i with
  | ldI nnn => exact .inr (.inl ⟨nnn, rfl⟩)
  | addI x => exact .inr (.inr (.inl ⟨x, rfl⟩))
  | ldF x => exact .inr (.inr (.inr ⟨x, rfl⟩))
  | ldVxK x => exact .inl (s.keyWait_index x)
  | _ => exact .inl rfl

theorem Instr.effect_draws : (i.effect s).draws = s.draws ∨ ∃ x nn, i = .rnd x nn := by
  cases i with
  | rnd x nn => exact .inr ⟨x, nn, rfl⟩
  | ldVxK x => exact .inl (s.keyWait_draws x)
  | _ => exact .inl rfl

end Effect

end Sys2Proof

namespace Sys2Proof.Machine

/-! ### Every instruction checks, then takes effect -/

/-- A skip on a flag, as one write of `pc`. -/
theorem State.skipIf_advance_bool (s : State) (c : Bool) :
    s.advance.skipIf c = s.jump (s.pc + if c = true then 4 else 2) := by
  rw [← State.skipIf_advance, Bool.decide_eq_true]

theorem execLdVxK_eq (x : Reg) (s : State) : execLdVxK x s = .next (s.keyWait x) := by
  unfold execLdVxK State.keyWait
  cases s.pressed <;> rfl

/-- Every instruction checks, and then takes effect or raises (R114, R117). -/
theorem exec_eq (i : Instr) (s : State) : exec i s = checked (i.check s) s (i.effect s) := by
  cases i with
  | seImm | sneImm | seReg | sneReg => exact congrArg Host.Outcome.next (State.skipIf_advance s _)
  | skp x => exact congrArg (checked _ s) (State.skipIf_advance_bool s _)
  | sknp x =>
    refine congrArg (checked _ s) ((State.skipIf_advance_bool s _).trans ?_)
    simp only [Instr.effect, Bool.not_eq_true', Bool.not_eq_true]
  | ldVxK x => exact execLdVxK_eq x s
  | _ => rfl

theorem exec_effect {i : Instr} {s : State} (h : i.check s = none) : exec i s = .next (i.effect s) := by
  rw [exec_eq, h, checked_none]

theorem exec_raise {i : Instr} {s : State} {e : FatalError} (h : i.check s = some e) :
    exec i s = .next (s.halted e) := by
  rw [exec_eq, h, checked_some]

/-- Everything an instruction can do: its effect, or nothing but `HALT`. -/
theorem exec_cases {i : Instr} {s t : State} (h : exec i s = .next t) :
    (i.check s = none ∧ t = i.effect s) ∨ ∃ e, i.check s = some e ∧ t = s.halted e :=
  checked_cases (exec_eq i s ▸ h)

/-- Latching the target again, after the wait is cleared, changes nothing. -/
theorem State.setWait_latched {s : State} {x : Reg} (h : s.wait = some x) :
    (s.setWait none).setWait (some x) = s := by
  rw [← h]
  rfl

/-- A Blocked tick waits for a key as the `Fx0A` it is blocked on did, from the state that is not yet Blocked
(R99). -/
theorem blockedTick_eq {s : State} {x : Reg} (hwait : s.wait = some x) :
    blockedTick x s = .next ((s.setWait none).keyWait x) := by
  have hpressed : (s.setWait none).pressed = s.pressed := rfl
  unfold blockedTick State.keyWait
  rw [hpressed]
  cases s.pressed with
  | some k => rfl
  | none => exact congrArg Host.Outcome.next (State.setWait_latched hwait).symm

/-! ### The errors of a Ready tick -/

/-- What each check finds, and exactly when it finds it (R110, R111, R113). -/
theorem State.pushCheck_some {s : State} {e : FatalError} :
    s.pushCheck = some e ↔ s.sp.val = 16 ∧ .stackOverflow = e :=
  Option.ite_none_right_eq_some.trans (and_congr_right' Option.some_inj)

theorem State.popCheck_some {s : State} {e : FatalError} :
    s.popCheck = some e ↔ s.sp.val = 0 ∧ .stackUnderflow = e :=
  Option.ite_none_right_eq_some.trans (and_congr_right' Option.some_inj)

theorem memoryCheck_some {last : Nat} {e : FatalError} :
    memoryCheck last = some e ↔ 4095 < last ∧ .outOfRange .memory last = e :=
  Option.ite_none_right_eq_some.trans (and_congr_right' Option.some_inj)

theorem keyCheck_some {b : Byte} {e : FatalError} :
    keyCheck b = some e ↔ 15 < b.toNat ∧ .outOfRange .keyIndex b.toNat = e :=
  Option.ite_none_right_eq_some.trans (and_congr_right' Option.some_inj)

theorem glyphCheck_some {b : Byte} {e : FatalError} :
    glyphCheck b = some e ↔ 15 < b.toNat ∧ .outOfRange .glyphIndex b.toNat = e :=
  Option.ite_none_right_eq_some.trans (and_congr_right' Option.some_inj)

/-- The sprite's check names the address of its last row, and a sprite without rows reads none (R94). -/
theorem State.spriteCheck_some {s : State} {n : Nat} {e : FatalError} : s.spriteCheck n = some e ↔
    0 < n ∧ 4095 < s.index.toNat + n - 1 ∧ .outOfRange .memory (s.index.toNat + n - 1) = e := by
  rcases Nat.eq_zero_or_pos n with rfl | hn
  · simp [State.spriteCheck]
  · rw [State.spriteCheck, if_neg (Nat.ne_of_gt hn), memoryCheck_some, State.address, Nat.add_sub_assoc hn]
    exact (and_iff_right hn).symm

/-- What an instruction's check finds is listed (R109, R113). -/
theorem raises_of_check {s : State} {i : Instr} {e : FatalError} (hpc : s.pc.toNat ≤ 4094)
    (hi : decodeWord s.opcode = some i) (h : i.check s = some e) : Raises s e := by
  cases i with
  | ret => obtain ⟨hsp, rfl⟩ := State.popCheck_some.1 h; exact .underflow hpc hi hsp
  | call nnn => obtain ⟨hsp, rfl⟩ := State.pushCheck_some.1 h; exact .overflow hpc nnn hi hsp
  | drw x y n => obtain ⟨hn, hlast, rfl⟩ := State.spriteCheck_some.1 h; exact .sprite hpc x y n hi hn hlast
  | skp x => obtain ⟨hk, rfl⟩ := keyCheck_some.1 h; exact .skp hpc x hi hk
  | sknp x => obtain ⟨hk, rfl⟩ := keyCheck_some.1 h; exact .sknp hpc x hi hk
  | ldF x => obtain ⟨hk, rfl⟩ := glyphCheck_some.1 h; exact .glyph hpc x hi hk
  | ldB x => obtain ⟨hlast, rfl⟩ := memoryCheck_some.1 h; exact .bcd hpc x hi hlast
  | storeRegs x => obtain ⟨hlast, rfl⟩ := memoryCheck_some.1 h; exact .store hpc x hi hlast
  | loadRegs x => obtain ⟨hlast, rfl⟩ := memoryCheck_some.1 h; exact .load hpc x hi hlast
  | _ => cases h

/-- Everything a tick can do: nothing while Halted, the key wait while Blocked, and while Ready a raise of a
listed error or the effect of the instruction at `pc`. -/
theorem step_effects {s t : State} (h : step s = .next t) :
    (∃ e, s.halt = some e ∧ t = s) ∨
    (∃ x, s.halt = none ∧ s.wait = some x ∧ t = (s.setWait none).keyWait x) ∨
    (s.isReady ∧ ∃ e, Raises s e ∧ t = s.halted e) ∨
    (s.isReady ∧ s.pc.toNat ≤ 4094 ∧ ∃ i, decodeWord s.opcode = some i ∧ i.check s = none ∧
      t = i.effect s) := by
  obtain hhalted | ⟨x, hh, hw, hb⟩ | ⟨hh, hw, hpc, ht⟩ | ⟨hh, hw, hpc, hi, ht⟩ | ⟨hh, hw, hpc, i, hi, hx⟩ :=
    step_cases h
  · exact .inl hhalted
  · rw [blockedTick_eq hw] at hb
    exact .inr (.inl ⟨x, hh, hw, (Host.Outcome.next.inj hb).symm⟩)
  · exact .inr (.inr (.inl ⟨⟨hh, hw⟩, _, .fetch hpc, ht⟩))
  · exact .inr (.inr (.inl ⟨⟨hh, hw⟩, _, .unknown hpc hi, ht⟩))
  · obtain ⟨hcheck, ht⟩ | ⟨e, hcheck, ht⟩ := exec_cases hx
    · exact .inr (.inr (.inr ⟨⟨hh, hw⟩, hpc, i, hi, hcheck, ht⟩))
    · exact .inr (.inr (.inl ⟨⟨hh, hw⟩, e, raises_of_check hpc hi hcheck, ht⟩))

/-- A Ready tick on an instruction whose check finds an error. -/
theorem step_raise {s : State} {i : Instr} {e : FatalError} (hready : s.isReady) (hpc : s.pc.toNat ≤ 4094)
    (hi : decodeWord s.opcode = some i) (h : i.check s = some e) : step s = .next (s.halted e) := by
  rw [step_ready hready.1 hready.2, readyTick_exec hpc hi, exec_raise h]

/-- A Ready tick raises every error that is listed. -/
theorem step_of_raises {s : State} {e : FatalError} (hready : s.isReady) (h : Raises s e) :
    step s = .next (s.halted e) := by
  cases h with
  | fetch hpc => rw [step_ready hready.1 hready.2, readyTick_range hpc]
  | unknown hpc hi => rw [step_ready hready.1 hready.2, readyTick_unknown hpc hi]
  | overflow hpc nnn hi hsp => exact step_raise hready hpc hi (State.pushCheck_full hsp)
  | underflow hpc hi hsp => exact step_raise hready hpc hi (State.popCheck_empty hsp)
  | sprite hpc x y n hi hn hlast => exact step_raise hready hpc hi (State.spriteCheck_some.2 ⟨hn, hlast, rfl⟩)
  | bcd hpc x hi hlast | store hpc x hi hlast | load hpc x hi hlast =>
    exact step_raise hready hpc hi (memoryCheck_some.2 ⟨hlast, rfl⟩)
  | skp hpc x hi hk | sknp hpc x hi hk => exact step_raise hready hpc hi (keyCheck_some.2 ⟨hk, rfl⟩)
  | glyph hpc x hi hk => exact step_raise hready hpc hi (glyphCheck_some.2 ⟨hk, rfl⟩)

end Sys2Proof.Machine
end

section
/-! The tick (spec/40_flow.md R71; spec/60_exceptions.md sections 1 and 2): the order of its causes, and what a
raise leaves. -/

namespace Sys2Proof.Machine

/-- The errors a Ready tick raises are the listed ones, each from the state before the tick (R109, R114). -/
theorem step_halts_iff {s : State} {e : FatalError} (hready : s.isReady) :
    (∃ t, step s = .next t ∧ t.halt = some e) ↔ Raises s e := by
  refine ⟨?_, fun h => ⟨s.halted e, step_of_raises hready h, rfl⟩⟩
  rintro ⟨t, hstep, ht⟩
  obtain ⟨_, he, -⟩ | ⟨_, -, hw, -⟩ | ⟨-, e', hraise, rfl⟩ | ⟨-, -, i, -, -, rfl⟩ := step_effects hstep
  · exact absurd (hready.1.symm.trans he) (by simp)
  · exact absurd (hready.2.symm.trans hw) (by simp)
  · exact Option.some.inj ht ▸ hraise
  · exact absurd ((i.effect_halt s).symm.trans ht) (by simp [hready.1])

/-- The bytes of one instruction, as the word a fetch reads (R41, R57). -/
theorem decodeWord_of_decodeBytes {hi lo : Byte} {i : Instr} (h : decodeBytes [hi, lo] = .ok (i, [])) :
    decodeWord (wordOfBytes hi lo) = some i := by
  cases hword : decodeWord (wordOfBytes hi lo) with
  | none => simp [decodeBytes, hword] at h
  | some j => simpa [decodeBytes, hword] using h

/-- Settles O7: a pair of bytes that decodes with nothing left over is a word that decodes. -/
theorem stepRunsDecodedInstruction : Obligations.StepRunsDecodedInstruction := by
  unfold Obligations.StepRunsDecodedInstruction
  rintro s i ⟨hhalt, hwait⟩ hpc hbytes
  rw [step_ready hhalt hwait, readyTick_exec hpc (decodeWord_of_decodeBytes hbytes)]

/-- Settles O8: by the equations of a tick, one for each condition of the engine and for each outcome of the
fetch. -/
theorem tickFollowsPriorityOrder : Obligations.TickFollowsPriorityOrder := by
  unfold Obligations.TickFollowsPriorityOrder
  intro s
  refine ⟨fun e he => ⟨step_halted he, by rw [tickReturns, he]⟩, fun x hh hw => step_blocked hh hw,
    fun hready hpc => ?range, fun hready hpc hi => ?unknown, fun i hready hpc hi => ?exec⟩
  case range => rw [step_ready hready.1 hready.2, readyTick_range hpc]
  case unknown => rw [step_ready hready.1 hready.2, readyTick_unknown hpc hi]
  case exec => rw [step_ready hready.1 hready.2, readyTick_exec hpc hi]

/-- An instruction answers a next state: its effect or a raise. -/
theorem exists_exec_eq_next (i : Instr) (s : State) : ∃ t, exec i s = .next t := by
  cases h : i.check s with
  | none => exact ⟨_, exec_effect h⟩
  | some e => exact ⟨_, exec_raise h⟩

/-- Settles O9: along the engine's conditions and the outcomes of the fetch, each of which answers a state. -/
theorem stepAlwaysAnswersNext : Obligations.StepAlwaysAnswersNext := by
  unfold Obligations.StepAlwaysAnswersNext
  intro s
  cases hh : s.halt with
  | some e => exact ⟨s, step_halted hh⟩
  | none =>
    cases hw : s.wait with
    | some x => exact ⟨_, (step_blocked hh hw).trans (blockedTick_eq hw)⟩
    | none =>
      rw [step_ready hh hw]
      rcases Nat.lt_or_ge 4094 s.pc.toNat with hpc | hpc
      · exact ⟨_, readyTick_range hpc⟩
      · cases hi : decodeWord s.opcode with
        | none => exact ⟨_, readyTick_unknown hpc hi⟩
        | some i => rw [readyTick_exec hpc hi]; exact exists_exec_eq_next i s

/-- Settles O10: of what a tick can do, only a raise sets `HALT`, and it writes nothing else. -/
theorem raiseChangesOnlyHalt : Obligations.RaiseChangesOnlyHalt := by
  unfold Obligations.RaiseChangesOnlyHalt
  intro s t e hstep hh ht
  obtain ⟨_, he, -⟩ | ⟨x, -, -, rfl⟩ | ⟨hready, e', -, rfl⟩ | ⟨-, -, i, -, -, rfl⟩ := step_effects hstep
  · exact absurd (hh.symm.trans he) (by simp)
  · exact absurd (((s.setWait none).keyWait_halt x).symm.trans ht) (by simp [hh])
  · obtain rfl := Option.some.inj ht
    exact ⟨rfl, hready.2, rfl, rfl⟩
  · exact absurd ((i.effect_halt s).symm.trans ht) (by simp [hh])

/-- Settles O11: a check of an instruction finds what the tables list, and the tables list no more. -/
theorem raisesExactlyTheListedErrors : Obligations.RaisesExactlyTheListedErrors := by
  unfold Obligations.RaisesExactlyTheListedErrors
  exact fun s e hready => step_halts_iff hready

end Sys2Proof.Machine
end

section
/-! What each move of the host answers (spec/00_scope.md R9): one of the calls is refused or it writes its own
component, in every condition of the engine (R115). -/

namespace Sys2Proof.Machine

theorem makeMove_reset (s : State) : makeMove .reset s = .next (hostReset s) := rfl

theorem setKey_cases {k : Nat} {p : Bool} {s t : State} (h : makeMove (.setKey k p) s = .next t) :
    t = s.setKeyBit (Fin.ofNat 16 k) p := by
  change setKey k p s = .next t at h
  unfold setKey at h
  split at h
  · cases h
  · exact (Host.Outcome.next.inj h).symm

theorem load_cases {bytes : List Byte} {s t : State} (h : makeMove (.load bytes) s = .next t) :
    t = s.storeBytes 0x200 bytes := by
  change load bytes s = .next t at h
  unfold load at h
  split at h
  · cases h
  · exact (Host.Outcome.next.inj h).symm

/-- Settles O12: a Halted tick changes nothing and no call of the host but `reset` writes `HALT`. -/
theorem haltLastsUntilReset : Obligations.HaltLastsUntilReset := by
  unfold Obligations.HaltLastsUntilReset
  refine ⟨fun m s t e h he hne => ?_, fun s t h => ?_⟩
  · cases m with
    | tick => exact Host.Outcome.next.inj ((step_halted he).symm.trans h) ▸ he
    | reset => exact absurd rfl hne
    | setKey k p => rw [setKey_cases h, State.setKeyBit_halt, he]
    | load bytes => rw [load_cases h, State.storeBytes_halt, he]
    | decrementTimers | readFramebuffer | readSoundTimer => exact Host.Outcome.next.inj h ▸ he
  · exact Host.Outcome.next.inj h ▸ ⟨rfl, rfl⟩

end Sys2Proof.Machine
end

section
/-! The invariant of the machine (spec/10_state.md sections 3 and 8; spec/20_memory.md section 1): each of its parts
is kept by the effect of an instruction, so all of it by a tick, by every move and along every run from reset. -/

namespace Sys2Proof.Machine

/-! ### Memory -/

theorem effect_mem_wf {s : State} (i : Instr) (h : s.mem.wf = true) : (i.effect s).mem.wf = true := by
  obtain hsame | ⟨x, -, hmem⟩ | ⟨x, -, hmem⟩ := i.effect_mem s
  · rw [hsame, h]
  · rw [hmem, Memory.wf_writeBytes _ _ _ h]
  · rw [hmem, Memory.wf_writeBytes _ _ _ h]

/-! ### `pc` and the call stack -/

theorem wideAddr_toNat (nnn : Addr) : (wideAddr nnn).toNat = nnn.toNat := by
  have hnnn := nnn.isLt
  rw [wideAddr, BitVec.toNat_setWidth]
  omega

theorem wideByte_toNat (b : Byte) : (wideByte b).toNat = b.toNat := by
  have hb := b.isLt
  rw [wideByte, BitVec.toNat_setWidth]
  omega

/-- The sum of `JP V0,nnn` does not wrap (R76). -/
theorem wideAddr_add_wideByte_toNat (nnn : Addr) (b : Byte) :
    (wideAddr nnn + wideByte b).toNat = nnn.toNat + b.toNat := by
  have hnnn := nnn.isLt
  have hb := b.isLt
  rw [BitVec.toNat_add, wideAddr_toNat, wideByte_toNat]
  omega

/-- No advance from fetch range wraps (R18). -/
theorem pc_add_le {pc d : Word} (hpc : pc.toNat ≤ 4094) (hd : d.toNat ≤ 4) :
    (pc + d).toNat ≤ 4094 + d.toNat := by
  rw [BitVec.toNat_add]
  omega

theorem State.skip_pc_le {s : State} (p : Prop) [Decidable p] (hpc : s.pc.toNat ≤ 4094) :
    (s.jump (s.pc + if p then 4 else 2)).pc.toNat ≤ 0x10FE := by
  rw [State.jump_pc]
  split
  · exact (pc_add_le hpc (by decide)).trans (by decide)
  · exact (pc_add_le hpc (by decide)).trans (by decide)

/-- The bound of R18: `pc` after an instruction that was fetched, with the return addresses bounded. -/
theorem effect_pc_le {s : State} (i : Instr) (hpc : s.pc.toNat ≤ 4094) (hslot : ∀ k, (s.slot k).toNat ≤ 4096) :
    (i.effect s).pc.toNat ≤ 0x10FE := by
  have hadvance : s.advance.pc.toNat ≤ 0x10FE := (pc_add_le hpc (by decide)).trans (by decide)
  cases i with
  | ret => exact (hslot _).trans (by decide)
  | jp nnn | call nnn =>
    have hnnn := nnn.isLt
    exact (wideAddr_toNat nnn).trans_le (by omega)
  | jpV0 nnn =>
    have hnnn := nnn.isLt
    have hb := (s.reg 0).isLt
    exact (wideAddr_add_wideByte_toNat nnn (s.reg 0)).trans_le (by omega)
  | seImm | sneImm | seReg | sneReg | skp | sknp => exact State.skip_pc_le _ hpc
  | ldVxK x =>
    obtain ⟨k, -, h⟩ | ⟨-, h⟩ := s.keyWait_cases x
    · rw [Instr.effect, h]; exact hadvance
    · rw [Instr.effect, h]; exact hpc.trans (by decide)
  | _ => exact hadvance

/-- The bound of R18 on return addresses: `CALL` pushes the address after a word in fetch range. -/
theorem effect_slot_le {s : State} (i : Instr) (hcheck : i.check s = none) (hpc : s.pc.toNat ≤ 4094)
    (hslot : ∀ k, (s.slot k).toNat ≤ 4096) (k : Fin 16) : ((i.effect s).slot k).toNat ≤ 4096 := by
  obtain ⟨-, hstack⟩ | rfl | ⟨nnn, rfl⟩ := i.effect_stack s
  · rw [State.slot, hstack]
    exact hslot k
  · exact hslot k
  · have hsp : s.advance.sp.val < 16 := (State.pushCheck_none s).1 hcheck
    change ((s.advance.push s.advance.pc).slot k).toNat ≤ 4096
    rw [State.slot_push s.advance s.advance.pc k hsp]
    split
    · exact pc_add_le hpc (by decide)
    · exact hslot k

/-! ### The latches -/

/-- Only an `Fx0A` that finds no key writes `WAIT`, and it stays at its own address (R98). -/
theorem effect_wait {s : State} (i : Instr) :
    (i.effect s).wait = s.wait ∨ (i.effect s).pc = s.pc := by
  cases i with
  | ldVxK x =>
    obtain ⟨k, -, h⟩ | ⟨-, h⟩ := s.keyWait_cases x
    · exact .inl (by rw [Instr.effect, h]; rfl)
    · exact .inr (by rw [Instr.effect, h]; rfl)
  | _ => exact .inl rfl

/-! ### Steps, moves, runs -/

/-- An instruction that was fetched keeps the invariant: the engine is Ready before it and not Halted after. -/
theorem effect_inv {s : State} (i : Instr) (hinv : s.Inv) (hready : s.isReady) (hpc : s.pc.toNat ≤ 4094)
    (hcheck : i.check s = none) : (i.effect s).Inv := by
  obtain ⟨hmem, -, -, hslot, -⟩ := hinv
  refine ⟨effect_mem_wf i hmem, fun hhalt => ?halt, effect_pc_le i hpc hslot,
    effect_slot_le i hcheck hpc hslot, fun hwait => ?wait⟩
  case halt => exact absurd ((i.effect_halt s).trans hready.1) hhalt
  case wait =>
    obtain hsame | hsame := effect_wait (s := s) i
    · exact absurd (hsame.trans hready.2) hwait
    · rw [hsame]; exact hpc

/-- A raise from a Ready state keeps the invariant (R114). -/
theorem halted_inv {s : State} (e : FatalError) (hinv : s.Inv) (hready : s.isReady) : (s.halted e).Inv := by
  obtain ⟨hmem, -, hpc⟩ := hinv
  exact ⟨hmem, fun _ => hready.2, hpc⟩

/-- Settles O13: by what a tick can do. A Blocked tick is the effect of an `Fx0A` at an address in fetch range. -/
theorem stepKeepsInvariant : Obligations.StepKeepsInvariant := by
  unfold Obligations.StepKeepsInvariant
  intro s t hinv hstep
  obtain ⟨_, -, rfl⟩ | ⟨x, hh, hw, rfl⟩ | ⟨hready, e, -, rfl⟩ | ⟨hready, hpc, i, -, hcheck, rfl⟩ :=
    step_effects hstep
  · exact hinv
  · obtain ⟨hmem, -, hpc, hslot, hblocked⟩ := hinv
    have hfetch : s.pc.toNat ≤ 4094 := hblocked (by simp [hw])
    exact effect_inv (s := s.setWait none) (.ldVxK x) ⟨hmem, fun _ => rfl, hpc, hslot, fun _ => hfetch⟩ ⟨hh, rfl⟩
      hfetch rfl
  · exact halted_inv e hinv hready
  · exact effect_inv i hinv hready hpc hcheck

/-- After a reset from any state the invariant holds: only the count of draws is not as in `State.reset`. -/
theorem hostReset_inv (s : State) : (hostReset s).Inv :=
  ⟨Memory.wf_nil, fun _ => rfl, (by decide : State.reset.pc.toNat ≤ 0x10FE),
    (by decide : ∀ k, (State.reset.slot k).toNat ≤ 4096), fun h => absurd rfl h⟩

/-- Settles O14: the memory lists nothing, the latches are clear, and `pc` and the slots are numbers within the
bounds. -/
theorem resetMeetsInvariant : Obligations.ResetMeetsInvariant := by
  unfold Obligations.ResetMeetsInvariant
  exact hostReset_inv State.reset

/-- Settles O15: a tick keeps it as a step, `reset` begins it again, `load` writes memory, and the other calls write
nothing the invariant speaks of. -/
theorem everyMoveKeepsInvariant : Obligations.EveryMoveKeepsInvariant := by
  unfold Obligations.EveryMoveKeepsInvariant
  intro m s t hinv h
  cases m with
  | tick => exact stepKeepsInvariant s t hinv h
  | reset => exact Host.Outcome.next.inj h ▸ hostReset_inv s
  | setKey k p => rw [setKey_cases h]; exact hinv
  | load bytes =>
    obtain ⟨hmem, hrest⟩ := hinv
    rw [load_cases h]
    exact ⟨Memory.wf_writeBytes bytes s.mem 0x200 hmem, hrest⟩
  | decrementTimers | readFramebuffer | readSoundTimer => exact Host.Outcome.next.inj h ▸ hinv

/-- A run keeps the invariant, move by move. -/
theorem runMoves_inv : ∀ (ms : List Move) (s t : State), s.Inv → runMoves ms s = .next t → t.Inv := by
  intro ms
  induction ms with
  | nil => exact fun s t hinv h => Host.Outcome.next.inj h ▸ hinv
  | cons m ms ih =>
    intro s t hinv h
    unfold runMoves at h
    split at h
    · next u hu => exact ih u t (everyMoveKeepsInvariant m s u hinv hu) h
    · cases h
    · cases h

/-- Settles O16: the invariant holds at reset and a run keeps it. -/
theorem reachableStatesMeetInvariant : Obligations.ReachableStatesMeetInvariant := by
  unfold Obligations.ReachableStatesMeetInvariant
  exact fun ms t => runMoves_inv ms State.reset t resetMeetsInvariant

end Sys2Proof.Machine
end

section
/-! Which ticks write which component (spec/10_state.md sections 5 and 6; spec/20_memory.md section 1). -/

namespace Sys2Proof.Machine

/-- What a tick leaves of a component that neither the key wait nor a raise writes: it is as before, or the tick
was that of a Ready engine at an instruction whose effect writes it. -/
theorem step_component {α : Type} {f : State → α} {s t : State} (h : step s = .next t)
    (hwait : ∀ x, f ((s.setWait none).keyWait x) = f s) (hhalted : ∀ e, f (s.halted e) = f s) :
    f t = f s ∨ (s.isReady ∧ ∃ i, decodeWord s.opcode = some i ∧ i.check s = none ∧ t = i.effect s) := by
  obtain ⟨_, -, rfl⟩ | ⟨x, -, -, rfl⟩ | ⟨-, e, -, rfl⟩ | ⟨hready, -, i, hi⟩ := step_effects h
  · exact .inl rfl
  · exact .inl (hwait x)
  · exact .inl (hhalted e)
  · exact .inr ⟨hready, i, hi⟩

/-- Settles O17: no effect, key wait or raise writes the latch, nor does any call of the host but the two. -/
theorem keyLatchIsWrittenByHostOnly : Obligations.KeyLatchIsWrittenByHostOnly := by
  unfold Obligations.KeyLatchIsWrittenByHostOnly
  intro m s t h
  cases m with
  | tick =>
    have hkeys : t.keys = s.keys := by
      obtain hsame | ⟨-, i, -, -, rfl⟩ :=
        step_component (f := State.keys) h (fun x => State.keyWait_keys _ x) (fun _ => rfl)
      · exact hsame
      · exact i.effect_keys s
    exact .inl fun k => by rw [State.key, State.key, hkeys]
  | reset => exact .inr (.inl rfl)
  | setKey k p => exact .inr (.inr ⟨k, p, rfl⟩)
  | load bytes => rw [load_cases h]; exact .inl fun _ => rfl
  | decrementTimers | readFramebuffer | readSoundTimer => exact .inl fun _ => Host.Outcome.next.inj h ▸ rfl

/-- Settles O19: of all effects those of `CLS` and `DRW` alone write the framebuffer. -/
theorem screenChangesOnlyByClsAndDrw : Obligations.ScreenChangesOnlyByClsAndDrw := by
  unfold Obligations.ScreenChangesOnlyByClsAndDrw
  intro s t h
  have hpixels : t.fb = s.fb → samePixels s t := fun hfb px py => by rw [State.pixel, State.pixel, hfb]
  obtain hsame | ⟨hready, i, hi, -, rfl⟩ :=
    step_component (f := State.fb) h (fun x => State.keyWait_fb _ x) (fun _ => rfl)
  · exact .inl (hpixels hsame)
  · obtain hsame | rfl | ⟨x, y, n, rfl⟩ := i.effect_fb s
    · exact .inl (hpixels hsame)
    · exact .inr ⟨hready, .inl hi⟩
    · exact .inr ⟨hready, .inr ⟨x, y, n, hi⟩⟩

/-- Settles O20: of all effects those of `Fx33` and `Fx55` alone write memory, each one block from `I` up. -/
theorem memoryChangesOnlyByStores : Obligations.MemoryChangesOnlyByStores := by
  unfold Obligations.MemoryChangesOnlyByStores
  intro s t h
  have hbytes : t.mem = s.mem → sameBytes s t := fun hmem a => by rw [State.byte, State.byte, hmem]
  obtain hsame | ⟨hready, i, hi, -, rfl⟩ :=
    step_component (f := State.mem) h (fun x => State.keyWait_mem _ x) (fun _ => rfl)
  · exact .inl (hbytes hsame)
  · obtain hsame | ⟨x, rfl, -⟩ | ⟨x, rfl, -⟩ := i.effect_mem s
    · exact .inl (hbytes hsame)
    · exact .inr ⟨hready, x, .inl ⟨hi, fun b hb => State.byte_storeBytes_outside _ _ _ _ hb⟩⟩
    · refine .inr ⟨hready, x, .inr ⟨hi, fun b hb => State.byte_storeBytes_outside _ _ _ _ ?_⟩⟩
      rw [State.regBlock_length]
      exact hb

/-- Settles O21: of all effects those of `RET` and `CALL` alone write the call stack, and those of `LD I`, `ADD I`
and `LD F` alone write `I`. -/
theorem stackAndIndexHaveFewWriters : Obligations.StackAndIndexHaveFewWriters := by
  unfold Obligations.StackAndIndexHaveFewWriters
  intro s t h
  refine ⟨?stack, ?index⟩
  case stack =>
    have hstack : t.sp = s.sp ∧ t.stack = s.stack → sameStack s t := fun ⟨hsp, hslots⟩ =>
      ⟨hsp, fun k => by rw [State.slot, State.slot, hslots]⟩
    obtain hsame | ⟨hready, i, hi, -, rfl⟩ := step_component (f := fun u => (u.sp, u.stack)) h
      (fun x => Prod.ext (State.keyWait_sp _ x) (State.keyWait_stack _ x)) (fun _ => rfl)
    · exact .inl (hstack (Prod.ext_iff.1 hsame))
    · obtain hsame | rfl | ⟨nnn, rfl⟩ := i.effect_stack s
      · exact .inl (hstack hsame)
      · exact .inr ⟨hready, .inl hi⟩
      · exact .inr ⟨hready, .inr ⟨nnn, hi⟩⟩
  case index =>
    obtain hsame | ⟨hready, i, hi, -, rfl⟩ :=
      step_component (f := State.index) h (fun x => State.keyWait_index _ x) (fun _ => rfl)
    · exact .inl hsame
    · obtain hsame | ⟨nnn, rfl⟩ | ⟨x, rfl⟩ | ⟨x, rfl⟩ := i.effect_index s
      · exact .inl hsame
      · exact .inr ⟨hready, .inl ⟨nnn, hi⟩⟩
      · exact .inr ⟨hready, .inr (.inl ⟨x, hi⟩)⟩
      · exact .inr ⟨hready, .inr (.inr ⟨x, hi⟩)⟩

end Sys2Proof.Machine
end

section
/-! Jumps, calls and returns (spec/40_flow.md sections 3 to 6): the effect of each is one write of `pc`, after a push
or a pop where it has one. -/

namespace Sys2Proof.Machine

/-- A jump to where `pc` stands changes nothing. -/
theorem State.jump_self {s : State} {target : Word} (h : s.pc = target) : s.jump target = s := by
  rw [← h]
  rfl

/-- Settles O30: `JP` is one write of `pc`, which finds 0xFFF outside of fetch range. -/
theorem jpSetsPcOnly : Obligations.JpSetsPcOnly := by
  unfold Obligations.JpSetsPcOnly
  refine ⟨by decide, fun s nnn => ?_⟩
  have hexec : exec (.jp nnn) s = .next (s.jump (wideAddr nnn)) := exec_effect (i := .jp nnn) rfl
  refine ⟨⟨_, hexec, wideAddr_toNat nnn, onlyRegs_jump s _⟩, fun hpc => ?self, fun hready hnnn => ?range⟩
  case self => rw [hexec, State.jump_self (BitVec.eq_of_toNat_eq (hpc.trans (wideAddr_toNat nnn).symm))]
  case range =>
    have hpc : (s.jump (wideAddr nnn)).pc.toNat = 0xFFF := by rw [State.jump_pc, wideAddr_toNat, hnnn]; rfl
    refine ⟨_, _, hexec, (step_ready (s := s.jump (wideAddr nnn)) hready.1 hready.2).trans
      (readyTick_range (by omega)), ?_⟩
    rw [State.halted_halt, hpc]

/-- Settles O34: `JP V0,nnn` is one write of `pc`, and its sum does not wrap. -/
theorem jpV0AddsV0Unmasked : Obligations.JpV0AddsV0Unmasked := by
  unfold Obligations.JpV0AddsV0Unmasked
  exact fun s nnn => ⟨_, exec_effect (i := .jpV0 nnn) rfl, wideAddr_add_wideByte_toNat nnn (s.reg 0),
    onlyRegs_jump s _⟩

/-- `CALL` below capacity (R75). -/
theorem exec_call_of_lt {s : State} (nnn : Addr) (h : s.sp.val < 16) :
    exec (.call nnn) s = .next ((s.advance.push s.advance.pc).jump (wideAddr nnn)) :=
  exec_effect (i := .call nnn) ((State.pushCheck_none s).2 h)

/-- `RET` on a stack that is not empty (R73). -/
theorem exec_ret_of_pos {s : State} (h : 0 < s.sp.val) : exec .ret s = .next (s.advance.drop.jump s.top) :=
  exec_effect (i := .ret) ((State.popCheck_none s).2 h)

/-- Settles O29: the pop reads the slot below `SP` and lowers `SP`; an empty stack fails its check. -/
theorem retPopsTheNewestAddress : Obligations.RetPopsTheNewestAddress := by
  unfold Obligations.RetPopsTheNewestAddress
  refine ⟨by decide, fun s k hsp => ?pop, fun s hempty => ?raise⟩
  case pop =>
    have hpos : 0 < s.sp.val := by omega
    refine ⟨_, exec_ret_of_pos hpos, State.top_eq s k hsp, ?sp, ?frame⟩
    case sp =>
      rw [State.jump_sp, State.sp_drop s.advance hpos, State.advance_sp]
      omega
    case frame =>
      simp [sameRegsBut, sameBytes, samePixels, sameTimers, sameRest, sameKeys, sameLatches]
  case raise => exact ⟨_, exec_raise (i := .ret) (State.popCheck_empty hempty), rfl, rfl⟩

/-- Settles O31: the push writes the slot at `SP` and raises `SP`. -/
theorem callPushesTheNextAddress : Obligations.CallPushesTheNextAddress := by
  unfold Obligations.CallPushesTheNextAddress
  intro s nnn k hsp
  have hlt : s.sp.val < 16 := hsp ▸ k.isLt
  refine ⟨_, exec_call_of_lt nnn hlt, ?pushed, ?sp, wideAddr_toNat nnn, fun j hj => ?others, ?frame⟩
  case pushed => exact (State.slot_push s.advance _ k hlt).trans (if_pos hsp.symm)
  case sp => rw [State.jump_sp, State.sp_push s.advance _ hlt, State.advance_sp, hsp]
  case others =>
    have hne : j.val ≠ s.advance.sp.val := fun h => hj (Fin.ext (h.trans hsp))
    rw [State.jump_slot, State.slot_push s.advance _ j hlt, if_neg hne, State.advance_slot]
  case frame =>
    simp [sameRegsBut, sameBytes, samePixels, sameTimers, sameRest, sameKeys, sameLatches]

theorem State.top_jump (s : State) (target : Word) : (s.jump target).top = s.top := rfl

/-- Settles O33: the slot the return pops is the one the call wrote. -/
theorem returnComesBackAfterCall : Obligations.ReturnComesBackAfterCall := by
  unfold Obligations.ReturnComesBackAfterCall
  intro s nnn hlt
  have hcall := exec_call_of_lt nnn hlt
  have hsp := State.sp_push s.advance s.advance.pc hlt
  have hret := exec_ret_of_pos (s := (s.advance.push s.advance.pc).jump (wideAddr nnn))
    (by rw [State.jump_sp, hsp]; exact Nat.succ_pos _)
  refine ⟨_, _, hcall, hret, ?pc, ?sp, ?frame⟩
  case pc =>
    rw [State.jump_pc, State.top_jump, State.top_eq _ ⟨s.sp.val, hlt⟩ hsp, State.slot_push s.advance _ _ hlt]
    exact if_pos rfl
  case sp =>
    refine Fin.ext ?_
    rw [State.jump_sp, State.sp_drop _ (by rw [State.advance_sp, State.jump_sp, hsp]; omega), State.advance_sp,
      State.jump_sp, hsp]
    rfl
  case frame => simp [sameRegsBut, sameBytes]

end Sys2Proof.Machine
end

section
/-! Register loads, immediate addition and logic (spec/42_arithmetic.md sections 2 and 3): the effect of each is one
write of `V[x]` after the fetch advance. -/

namespace Sys2Proof.Machine

theorem State.reg_setReg_self (s : State) (x : Reg) (b : Byte) : (s.setReg x b).reg x = b := by
  rw [State.reg_setReg, if_pos rfl]

/-- Settles O36: one write of `V[x]`, of the immediate or of the old `V[y]`. -/
theorem registerLoadsWriteVxOnly : Obligations.RegisterLoadsWriteVxOnly := by
  unfold Obligations.RegisterLoadsWriteVxOnly
  exact ⟨by decide, by decide, fun s x y nn =>
    ⟨⟨_, exec_effect (i := .ldImm x nn) rfl, State.reg_setReg_self _ x _, rfl, onlyRegs_setReg s x _⟩,
      ⟨_, exec_effect (i := .ldReg x y) rfl, State.reg_setReg_self _ x _, rfl, onlyRegs_setReg s x _⟩⟩⟩

/-- Settles O37: one write of `V[x]`, of a sum of bytes, which wraps modulo 256. -/
theorem addImmediateLeavesVfAlone : Obligations.AddImmediateLeavesVfAlone := by
  unfold Obligations.AddImmediateLeavesVfAlone
  intro s x nn
  refine ⟨_, exec_effect (i := .addImm x nn) rfl, ?sum, rfl, onlyRegs_setReg s x _⟩
  case sum => rw [Instr.effect, State.reg_setReg_self, BitVec.toNat_add]

/-- Settles O38: one write of `V[x]`, of a byte whose bits are those of the operands joined. -/
theorem logicWorksBitByBit : Obligations.LogicWorksBitByBit := by
  unfold Obligations.LogicWorksBitByBit
  intro s x y
  refine ⟨⟨_, exec_effect (i := .orReg x y) rfl, rfl, onlyRegs_setReg s x _, fun i _ => ?or⟩,
    ⟨_, exec_effect (i := .andReg x y) rfl, rfl, onlyRegs_setReg s x _, fun i _ => ?and⟩,
    ⟨_, exec_effect (i := .xorReg x y) rfl, rfl, onlyRegs_setReg s x _, fun i _ => ?xor⟩⟩
  case or => rw [Instr.effect, State.reg_setReg_self, BitVec.getLsbD_or]
  case and => rw [Instr.effect, State.reg_setReg_self, BitVec.getLsbD_and]
  case xor => rw [Instr.effect, State.reg_setReg_self, BitVec.getLsbD_xor]

end Sys2Proof.Machine
end

section
/-! The shifts (spec/42_arithmetic.md section 3, R90 and R92), for either operand: the two writes of R15, of the
operand shifted and of the bit shifted out. -/

namespace Sys2Proof.Machine

theorem toNat_shiftRight_one (b : Byte) : (b >>> 1).toNat = b.toNat / 2 := by
  rw [BitVec.toNat_ushiftRight, Nat.shiftRight_eq_div_pow]

theorem toNat_shiftLeft_one (b : Byte) : (b <<< 1).toNat = b.toNat * 2 % 256 := by
  rw [BitVec.toNat_shiftLeft, Nat.shiftLeft_eq]

/-- A bit of a byte as VF holds it (R19). -/
theorem flagByte_getLsbD_toNat (b : Byte) (k : Nat) :
    (flagByte (b.getLsbD k)).toNat = b.toNat / 2 ^ k % 2 := by
  rw [flagByte_toNat, BitVec.getLsbD, Nat.testBit_eq_decide_div_mod_eq]
  rcases Nat.mod_two_eq_zero_or_one (b.toNat / 2 ^ k) with h | h <;> simp [h]

theorem bitOutRight_toNat (b : Byte) : (flagByte (bitOutRight b)).toNat = b.toNat % 2 := by
  rw [bitOutRight, flagByte_getLsbD_toNat, Nat.pow_zero, Nat.div_one]

theorem bitOutLeft_toNat (b : Byte) : (flagByte (bitOutLeft b)).toNat = b.toNat / 128 := by
  have hb := b.isLt
  rw [bitOutLeft, flagByte_getLsbD_toNat]
  omega

/-- What both shifts end in, whatever the operand: a result and a flag, each read back as a number. -/
theorem resultThenFlag_reads (s : State) (x : Reg) {b : Byte} {f : Bool} {m n : Nat} (hb : b.toNat = m)
    (hf : (flagByte f).toNat = n) :
    (x ≠ vf → ((s.advance.resultThenFlag x b f).reg x).toNat = m) ∧
      ((s.advance.resultThenFlag x b f).reg vf).toNat = n ∧
      (s.advance.resultThenFlag x b f).pc = s.pc + 2 ∧ onlyRegs [x, vf] s (s.advance.resultThenFlag x b f) := by
  refine ⟨fun hx => ?dest, ?flag, rfl, onlyRegs_resultThenFlag s x b f⟩
  case dest => rw [State.reg_dest_resultThenFlag _ b f hx, hb]
  case flag => rw [State.reg_vf_resultThenFlag, hf]

/-- With `x = y` there is one operand, whatever `SHIFT_SRC` is (R4). -/
theorem State.shiftOperand_self (src : ShiftSrc) (s : State) (x : Reg) :
    s.shiftOperand src x x = s.shiftOperand .vx x x := by
  cases src <;> rfl

/-- Settles O42: `SHIFT_SRC` enters through the operand alone, and the rest is the two writes. -/
theorem shiftSourcesDifferOnlyInOperand : Obligations.ShiftSourcesDifferOnlyInOperand := by
  unfold Obligations.ShiftSourcesDifferOnlyInOperand
  intro src s x y
  refine ⟨⟨rfl, rfl⟩, resultThenFlag_reads s x (toNat_shiftRight_one _) (bitOutRight_toNat _),
    resultThenFlag_reads s x (toNat_shiftLeft_one _) (bitOutLeft_toNat _), ?right, ?left⟩
  case right => rw [shiftRight, shiftRight, State.shiftOperand_self]
  case left => rw [shiftLeft, shiftLeft, State.shiftOperand_self]

/-- Settles O41: the decided shifts are those of the operand `V[x]` (D8). -/
theorem shiftsMoveTheLostBitToVf : Obligations.ShiftsMoveTheLostBitToVf := by
  unfold Obligations.ShiftsMoveTheLostBitToVf
  intro s x y
  obtain ⟨-, hright, hleft, -⟩ := shiftSourcesDifferOnlyInOperand .vx s x y
  exact ⟨⟨_, exec_effect (i := .shr x y) rfl, hright⟩, ⟨_, exec_effect (i := .shl x y) rfl, hleft⟩⟩

end Sys2Proof.Machine
end

section
/-! The index register (spec/46_timers_index_memory.md section 2, R103 to R105): the effect of each of its three
writers is one write of `I` after the fetch advance. -/

namespace Sys2Proof.Machine

/-- What the three share: one that ends in a write of `I` leaves the number of its value there and moves nothing
else but `pc`. -/
theorem exists_setIndex {r : Result} {s : State} {a : Word} {n : Nat} (h : r = .next (s.advance.setIndex a))
    (ha : a.toNat = n) : ∃ t, r = .next t ∧ t.index.toNat = n ∧ t.pc = s.pc + 2 ∧ sameRegsBut [] s t ∧
      sameBytes s t ∧ samePixels s t ∧ sameStack s t ∧ sameTimers s t ∧ sameRest s t :=
  ⟨_, h, ha, rfl, fun _ _ => rfl, fun _ => rfl, fun _ _ => rfl, ⟨rfl, fun _ => rfl⟩, ⟨rfl, rfl⟩, fun _ => rfl,
    ⟨rfl, rfl⟩, rfl⟩

theorem glyphAddress_toNat {b : Byte} (h : b.toNat ≤ 15) : (glyphAddress b).toNat = 5 * b.toNat := by
  rw [glyphAddress, BitVec.toNat_ofNat]
  omega

/-- Settles O53: the value written is the immediate address, which fits. -/
theorem loadIndexSetsI : Obligations.LoadIndexSetsI := by
  unfold Obligations.LoadIndexSetsI
  exact ⟨by decide, fun s nnn => exists_setIndex (exec_effect (i := .ldI nnn) rfl) (wideAddr_toNat nnn)⟩

/-- Settles O55: the value written is a sum of words, which wraps modulo 65536. -/
theorem addIndexWrapsAt65536 : Obligations.AddIndexWrapsAt65536 := by
  unfold Obligations.AddIndexWrapsAt65536
  intro s x
  refine exists_setIndex (exec_effect (i := .addI x) rfl) ?sum
  case sum => rw [BitVec.toNat_add, wideByte_toNat]

/-- Settles O54: the value written is the glyph's address, once the check finds a digit. -/
theorem glyphAddressIsFiveTimesTheDigit : Obligations.GlyphAddressIsFiveTimesTheDigit := by
  unfold Obligations.GlyphAddressIsFiveTimesTheDigit
  exact fun s x =>
    ⟨fun h => exists_setIndex (exec_effect (i := .ldF x) ((glyphCheck_none _).2 h)) (glyphAddress_toNat h),
      fun h => exec_raise (i := .ldF x) (glyphCheck_some.2 ⟨h, rfl⟩)⟩

end Sys2Proof.Machine
end

section
/-! The keys (spec/45_keys.md, R96 to R99): the two skips test one key, and the wait takes the least one pressed,
in the instruction and in the Blocked tick alike. -/

namespace Sys2Proof.Machine

/-- The key of a register that holds a key number. -/
theorem State.keyAt_eq {s : State} {b : Byte} {k : Fin 16} (h : b.toNat = k.val) : s.keyAt b = s.key k := by
  have hk : Fin.ofNat 16 b.toNat = k := Fin.ext (by rw [Fin.val_ofNat, h, Nat.mod_eq_of_lt k.isLt])
  rw [State.keyAt, hk]

/-- Settles O47: with a key number the check finds nothing, and the effect is a jump by the level of that key;
above 15 the check finds the error. -/
theorem keySkipsTestTheLatch : Obligations.KeySkipsTestTheLatch := by
  unfold Obligations.KeySkipsTestTheLatch
  refine ⟨fun s x k hk => ?range, fun s x h => ⟨exec_raise (i := .skp x) (keyCheck_some.2 ⟨h, rfl⟩),
    exec_raise (i := .sknp x) (keyCheck_some.2 ⟨h, rfl⟩)⟩⟩
  case range =>
    have hcheck : keyCheck (s.reg x) = none := (keyCheck_none _).2 (by omega)
    refine ⟨⟨_, exec_effect (i := .skp x) hcheck, onlyRegs_jump s _, ?skp⟩,
      ⟨_, exec_effect (i := .sknp x) hcheck, onlyRegs_jump s _, ?sknp⟩⟩
    case skp => rw [Instr.effect, State.jump_pc, State.keyAt_eq hk]
    case sknp => rw [Instr.effect, State.jump_pc, State.keyAt_eq hk, ite_not]

theorem State.keyWait_pressed {s : State} (x : Reg) {k : Fin 16} (hk : s.key k = true)
    (hleast : ∀ j < k, s.key j = false) : s.keyWait x = s.advance.setReg x (keyByte k) := by
  rw [State.keyWait, (State.pressed_some s k).2 ⟨hk, hleast⟩]

theorem State.keyWait_unpressed {s : State} (x : Reg) (h : ∀ k, s.key k = false) :
    s.keyWait x = s.setWait (some x) := by
  rw [State.keyWait, (State.pressed_none s).2 h]

/-- Settles O48: the instruction is the key wait, in its two cases. -/
theorem keyWaitTakesLeastKeyOrBlocks : Obligations.KeyWaitTakesLeastKeyOrBlocks := by
  unfold Obligations.KeyWaitTakesLeastKeyOrBlocks
  intro s x
  have hexec : exec (.ldVxK x) s = .next (s.keyWait x) := exec_effect (i := .ldVxK x) rfl
  refine ⟨fun k hk hleast => ?pressed, fun hnone => ?unpressed⟩
  case pressed =>
    rw [State.keyWait_pressed x hk hleast] at hexec
    refine ⟨_, hexec, ?_, rfl, onlyRegs_setReg s x _⟩
    rw [State.reg_setReg_self, keyByte_toNat]
  case unpressed =>
    rw [State.keyWait_unpressed x hnone] at hexec
    refine ⟨_, hexec, ?_⟩
    simp [sameRegsBut, sameBytes, samePixels, sameStack, sameTimers, sameKeys]

/-- A Blocked tick is the key wait of the state that is not yet Blocked. -/
theorem step_eq_keyWait {s : State} {x : Reg} (hhalt : s.halt = none) (hwait : s.wait = some x) :
    step s = .next ((s.setWait none).keyWait x) :=
  (step_blocked hhalt hwait).trans (blockedTick_eq hwait)

/-- Settles O49: the key wait in its two cases, from the state with `WAIT` cleared. -/
theorem blockedTickPollsTheKeys : Obligations.BlockedTickPollsTheKeys := by
  unfold Obligations.BlockedTickPollsTheKeys
  intro s x hhalt hwait
  have hstep := step_eq_keyWait hhalt hwait
  have hok : ∀ t : State, t.halt = none → tickReturns t = .ok := fun t ht => by rw [tickReturns, ht]
  refine ⟨fun k hk hleast => ?pressed, fun hnone => ⟨?unpressed, hok s hhalt⟩⟩
  case pressed =>
    rw [State.keyWait_pressed (s := s.setWait none) x hk hleast] at hstep
    obtain ⟨hregs, hindex, hbytes, hpixels, hstack, htimers, hkeys, -, hdraws⟩ :=
      onlyRegs_setReg (s.setWait none) x (keyByte k)
    refine ⟨_, hstep, ?_, rfl, ⟨hhalt, rfl⟩, hok _ hhalt, hregs, hindex, hbytes, hpixels, hstack, htimers, hkeys,
      hdraws⟩
    rw [State.reg_setReg_self, keyByte_toNat]
  case unpressed => rw [hstep, State.keyWait_unpressed (s := s.setWait none) x hnone, State.setWait_latched hwait]

/-- Settles O50: both ticks are one key wait. -/
theorem blockedTickRepeatsTheKeyWait : Obligations.BlockedTickRepeatsTheKeyWait := by
  unfold Obligations.BlockedTickRepeatsTheKeyWait
  intro s x hhalt hwait hpc hi
  rw [step_eq_keyWait hhalt hwait, step_ready (s := s.setWait none) hhalt rfl,
    readyTick_exec (s := s.setWait none) hpc hi, exec_effect (i := .ldVxK x) rfl, Instr.effect]

end Sys2Proof.Machine
end

section
/-! What no tick reads (spec/43_random.md, log 3; spec/46_timers_index_memory.md section 1): two states that agree in
what the engine's conditions and the fetch read take corresponding steps, when the effects correspond. -/

namespace Sys2Proof.Machine

/-- Along what a tick can do: `R` holds after the step of `u` and that of `s` when it holds of the two, of what
a raise makes of them, of their key waits and of the effects of the fetched instruction. -/
theorem step_congr {R : State → State → Prop} {s t u : State} (hhalt : u.halt = s.halt) (hwait : u.wait = s.wait)
    (hpc : u.pc = s.pc) (hopcode : u.opcode = s.opcode) (hself : R u s)
    (hraise : ∀ e, R (u.halted e) (s.halted e))
    (hblocked : ∀ x, R ((u.setWait none).keyWait x) ((s.setWait none).keyWait x))
    (hexec : ∀ i, s.isReady → s.pc.toNat ≤ 4094 → decodeWord s.opcode = some i →
      i.check u = i.check s ∧ R (i.effect u) (i.effect s))
    (h : step s = .next t) : ∃ v, step u = .next v ∧ R v t := by
  have hready : s.halt = none → s.wait = none → step u = readyTick u := fun hh hw =>
    step_ready (hhalt.trans hh) (hwait.trans hw)
  have hpc : u.pc.toNat = s.pc.toNat := congrArg BitVec.toNat hpc
  have hword : decodeWord u.opcode = decodeWord s.opcode := congrArg decodeWord hopcode
  obtain ⟨e, he, rfl⟩ | ⟨x, hh, hw, hb⟩ | ⟨hh, hw, hrange, rfl⟩ | ⟨hh, hw, hrange, hi, rfl⟩ |
    ⟨hh, hw, hrange, i, hi, hx⟩ := step_cases h
  · exact ⟨u, step_halted (hhalt.trans he), hself⟩
  · rw [blockedTick_eq hw] at hb
    exact ⟨_, step_eq_keyWait (hhalt.trans hh) (hwait.trans hw), Host.Outcome.next.inj hb ▸ hblocked x⟩
  · refine ⟨_, ?_, hraise _⟩
    rw [hready hh hw, readyTick_range (hrange.trans_eq hpc.symm), hpc]
  · refine ⟨_, ?_, hraise _⟩
    rw [hready hh hw, readyTick_unknown (hpc.trans_le hrange) (hword.trans hi), hopcode]
  · obtain ⟨hcheck, heffect⟩ := hexec i ⟨hh, hw⟩ hrange hi
    rw [hready hh hw, readyTick_exec (hpc.trans_le hrange) (hword.trans hi)]
    obtain ⟨hnone, rfl⟩ | ⟨e, hsome, rfl⟩ := exec_cases hx
    · exact ⟨_, exec_effect (hcheck.trans hnone), heffect⟩
    · exact ⟨_, exec_raise (hcheck.trans hsome), hraise e⟩

/-! ### The count of draws -/

/-- `s` with another count of draws. -/
def State.withDraws (s : State) (d : Nat) : State := { s with draws := d }

theorem State.keyWait_withDraws (s : State) (d : Nat) (x : Reg) :
    (s.withDraws d).keyWait x = (s.keyWait x).withDraws d := by
  have hpressed : (s.withDraws d).pressed = s.pressed := rfl
  rw [State.keyWait, State.keyWait, hpressed]
  cases s.pressed <;> rfl

theorem check_withDraws (i : Instr) (s : State) (d : Nat) : i.check (s.withDraws d) = i.check s := by
  cases i <;> rfl

/-- No effect but that of `RND` reads the count or advances it. -/
theorem effect_withDraws {i : Instr} (hrnd : ∀ x nn, i ≠ .rnd x nn) (s : State) (d : Nat) :
    i.effect (s.withDraws d) = (i.effect s).withDraws d := by
  cases i with
  | rnd x nn => exact absurd rfl (hrnd x nn)
  | ldVxK x => exact s.keyWait_withDraws d x
  | _ => rfl

/-- Settles O44: `RND` is one write of `V[x]` after the count is advanced; the steps from `s` with two counts
correspond, since no other effect has to do with the count. -/
theorem eachRandomDrawIsFresh : Obligations.EachRandomDrawIsFresh := by
  unfold Obligations.EachRandomDrawIsFresh
  refine ⟨fun s x nn => ⟨_, exec_rnd x nn s, State.reg_setReg_self _ x _, rfl⟩, fun s t h => ?_⟩
  by_cases hfetched : s.isReady ∧ s.pc.toNat ≤ 4094 ∧ ∃ x nn, decodeWord s.opcode = some (.rnd x nn)
  · exact .inr hfetched
  · have hrnd : ∀ i, s.isReady → s.pc.toNat ≤ 4094 → decodeWord s.opcode = some i → ∀ x nn, i ≠ .rnd x nn :=
      fun i hready hpc hi x nn he => hfetched ⟨hready, hpc, x, nn, he ▸ hi⟩
    have hcongr : ∀ d, step (s.withDraws d) = .next (t.withDraws d) := fun d => by
      obtain ⟨v, hv, rfl⟩ := step_congr (R := fun v t => v = t.withDraws d) (s := s) (u := s.withDraws d)
        rfl rfl rfl rfl rfl (fun _ => rfl) (fun x => (s.setWait none).keyWait_withDraws d x)
        (fun i hready hpc hi => ⟨check_withDraws i s d, effect_withDraws (hrnd i hready hpc hi) s d⟩) h
      exact hv
    have hcount : t = t.withDraws s.draws := Host.Outcome.next.inj (h.symm.trans (hcongr s.draws))
    exact .inl ⟨hcount ▸ rfl, hcongr⟩

/-! ### The sound timer -/

theorem State.keyWait_setSt (s : State) (b : Byte) (x : Reg) : (s.setSt b).keyWait x = (s.keyWait x).setSt b := by
  have hpressed : (s.setSt b).pressed = s.pressed := rfl
  rw [State.keyWait, State.keyWait, hpressed]
  cases s.pressed <;> rfl

theorem check_setSt (i : Instr) (s : State) (b : Byte) : i.check (s.setSt b) = i.check s := by
  cases i <;> rfl

/-- No effect reads `ST`: whatever it is, all other components end the same. -/
theorem effect_setSt (i : Instr) (s : State) (b : Byte) : (i.effect (s.setSt b)).setSt 0 = (i.effect s).setSt 0 := by
  cases i with
  | ldVxK x => exact congrArg (·.setSt 0) (s.keyWait_setSt b x)
  | _ => rfl

/-- Settles O52: the write is one of ST after the fetch advance; the steps from two states that differ in `ST`
correspond, since no effect reads it. -/
theorem soundTimerIsWrittenAndNeverRead : Obligations.SoundTimerIsWrittenAndNeverRead := by
  unfold Obligations.SoundTimerIsWrittenAndNeverRead
  refine ⟨by decide, fun s x => ⟨_, exec_effect (i := .ldStVx x) rfl, rfl, rfl, rfl, fun _ _ => rfl, rfl,
    fun _ => rfl, fun _ _ => rfl, ⟨rfl, fun _ => rfl⟩, fun _ => rfl, ⟨rfl, rfl⟩, rfl⟩, fun s t b h => ?_⟩
  exact step_congr (R := fun v t => v.setSt 0 = t.setSt 0) (s := s) (u := s.setSt b) rfl rfl rfl rfl rfl
    (fun _ => rfl) (fun x => congrArg (·.setSt 0) ((s.setWait none).keyWait_setSt b x))
    (fun i _ _ _ => ⟨check_setSt i s b, effect_setSt i s b⟩) h

end Sys2Proof.Machine
end

section
/-! The host's calls (spec/60_exceptions.md section 3; spec/70_reset_and_hazards.md): what `reset`, `set_key` and `load`
leave in each component. -/

namespace Sys2Proof.Machine

/-! ### Reset -/

/-- After a reset every byte reads as unlisted (R36). -/
theorem byte_hostReset (s : State) (a : Nat) : (hostReset s).byte a = Memory.unlisted a := rfl

/-- Above the font an unlisted byte is 0 (R31, R32). -/
theorem Memory.unlisted_above {a : Nat} (h : 80 ≤ a) : Memory.unlisted a = 0 :=
  List.getD_eq_default _ _ h

theorem reg_hostReset (s : State) (r : Reg) : (hostReset s).reg r = 0 := Vector.getElem_replicate _

theorem slot_hostReset (s : State) (k : Fin 16) : (hostReset s).slot k = 0 := Vector.getElem_replicate _

theorem key_hostReset (s : State) (k : Fin 16) : (hostReset s).key k = false := Vector.getElem_replicate _

theorem pixel_hostReset (s : State) (px : Fin 64) (py : Fin 32) : (hostReset s).pixel px py = false :=
  pixelOf_clearFramebuffer px py

/-- Settles O23: the components one by one; the glyphs are read off the font, the bytes above it are past its
end. -/
theorem resetLeavesEveryComponentDefined : Obligations.ResetLeavesEveryComponentDefined := by
  unfold Obligations.ResetLeavesEveryComponentDefined
  intro s t h
  obtain rfl : hostReset s = t := Host.Outcome.next.inj h
  refine ⟨?glyphs, fun a ha => (byte_hostReset s a).trans (Memory.unlisted_above ha), reg_hostReset s, rfl, rfl,
    slot_hostReset s, rfl, pixel_hostReset s, rfl, rfl, key_hostReset s, rfl, rfl⟩
  case glyphs =>
    simp only [byte_hostReset]
    decide

/-- Settles O24: of the state before it a reset keeps the count of draws alone. -/
theorem resetForgetsHistory : Obligations.ResetForgetsHistory := by
  unfold Obligations.ResetForgetsHistory
  exact fun s u => ⟨rfl, rfl, rfl⟩

/-! ### Keys and programs -/

theorem makeMove_setKey (s : State) (k : Fin 16) (p : Bool) :
    makeMove (.setKey k.val p) s = .next (s.setKeyBit k p) := by
  have hk : Fin.ofNat 16 k.val = k := Fin.ext (Nat.mod_eq_of_lt k.isLt)
  have hle : ¬ k.val > 15 := by omega
  exact (if_neg hle).trans (by rw [hk])

/-- Settles O26: one write of the latch for a key number, and a refusal above 15. -/
theorem setKeyWritesOneFlag : Obligations.SetKeyWritesOneFlag := by
  unfold Obligations.SetKeyWritesOneFlag
  refine ⟨fun s k p => ⟨_, makeMove_setKey s k p, ?pressed, fun j hj => ?others, ?frame⟩, fun s k p h => if_pos h⟩
  case pressed => rw [State.key_setKeyBit, if_pos rfl]
  case others => rw [State.key_setKeyBit, if_neg hj]
  case frame => simp [sameRegsBut, sameBytes, samePixels, sameStack, sameTimers, sameLatches]

/-- A byte of a block that was stored in the array, by its place in the block. -/
theorem State.byte_storeBytes_add (s : State) {a j : Nat} {bs : List Byte} (h : a + bs.length ≤ 4096)
    (hj : j < bs.length) : (s.storeBytes a bs).byte (a + j) = bs.getD j 0 := by
  rw [State.byte_storeBytes s a (a + j) bs h, if_pos ⟨Nat.le_add_right a j, Nat.add_lt_add_left hj a⟩,
    Nat.add_sub_cancel_left]

/-- Settles O27: one block of bytes from 0x200 up, which lies in memory; a longer program is refused. -/
theorem loadWritesTheProgramBytes : Obligations.LoadWritesTheProgramBytes := by
  unfold Obligations.LoadWritesTheProgramBytes
  refine fun s bytes => ⟨fun hlen => ?fits, fun hlen => if_pos hlen⟩
  case fits =>
    refine ⟨s.storeBytes 0x200 bytes, if_neg (Nat.not_lt.2 hlen),
      fun j hj => State.byte_storeBytes_add s (by omega) hj,
      fun b hb => State.byte_storeBytes_outside s 0x200 b bytes hb, ?frame⟩
    simp [sameRegsBut, samePixels, sameStack, sameTimers, sameRest, sameKeys, sameLatches]

end Sys2Proof.Machine
end

section
/-! The sprite draw as an instruction (spec/44_draw.md, R94): the pixels it flips are those a 1 bit of the sprite
lands on, and VF tells whether one of them was on. -/

namespace Sys2Proof.Machine

/-- Whether a 1 bit of the sprite of `n` rows at `I`, drawn at `V[x]`, `V[y]`, lands on a pixel. -/
def State.spriteHits (s : State) (x y : Reg) (n : Nat) (px : Fin 64) (py : Fin 32) : Bool :=
  spriteBit (s.reg x).toNat (s.reg y).toNat (fun r => s.byte (s.address r)) n px py

theorem State.spriteHits_iff {s : State} {x y : Reg} {n : Nat} {px : Fin 64} {py : Fin 32} :
    s.spriteHits x y n px py = true ↔ ∃ r < n, ∃ c < 8, ((s.reg x).toNat + c) % 64 = px.val ∧
      ((s.reg y).toNat + r) % 32 = py.val ∧ (s.byte (s.index.toNat + r)).getLsbD (7 - c) = true :=
  spriteBit_iff

theorem flagByte_eq_one : ∀ {f : Bool}, flagByte f = 1 ↔ f = true := by decide

theorem flagByte_eq_zero : ∀ {f : Bool}, flagByte f = 0 ↔ ¬ f = true := by decide

/-- VF after a draw is the flag, which is written last (R15). -/
theorem vf_of_drw {s t : State} {x y : Reg} {n : Nat} (ht : t = (Instr.drw x y n).effect s) :
    t.reg vf = flagByte (s.drawing x y n).2 := by
  subst ht
  exact State.reg_setReg_self _ vf _

section Drawn

variable {s t : State} {x y : Reg} {n : Nat} (hn : n ≤ 15) (ht : t = (Instr.drw x y n).effect s)
include hn ht

theorem pixel_of_drw (px : Fin 64) (py : Fin 32) :
    t.pixel px py = (s.pixel px py ^^ s.spriteHits x y n px py) := by
  subst ht
  exact pixelOf_plotSprite _ _ _ n (by omega) (s.fb, false) px py

theorem vf_of_drw_iff : t.reg vf = 1 ↔ ∃ px py, s.spriteHits x y n px py = true ∧ s.pixel px py = true := by
  rw [vf_of_drw ht, flagByte_eq_one]
  exact plotSprite_collision _ _ _ n (by omega) s.fb

/-- A pixel goes from on to off when it is on and is hit. -/
theorem turnedOff_iff_of_drw : (∃ px py, s.pixel px py = true ∧ t.pixel px py = false) ↔ t.reg vf = 1 := by
  rw [vf_of_drw_iff hn ht]
  refine exists_congr fun px => exists_congr fun py => ?_
  rw [pixel_of_drw hn ht]
  cases s.pixel px py <;> simp

end Drawn

theorem exec_drw {s : State} (x y : Reg) {n : Nat} (h : n = 0 ∨ s.index.toNat + n - 1 ≤ 4095) :
    exec (.drw x y n) s = .next ((Instr.drw x y n).effect s) := by
  refine exec_effect (Option.eq_none_iff_forall_ne_some.2 fun e he => ?_)
  obtain ⟨hpos, hlast, -⟩ := State.spriteCheck_some.1 he
  omega

/-- Settles O45: each pixel is the old one, flipped when it is hit. -/
theorem drawXorsSpriteIntoScreen : Obligations.DrawXorsSpriteIntoScreen := by
  unfold Obligations.DrawXorsSpriteIntoScreen
  intro s x y n hn hrange
  refine ⟨_, exec_drw x y hrange, fun px py => ?flips, (turnedOff_iff_of_drw hn rfl).1, fun hnone => ?clear, rfl,
    fun r hr => ?regs, rfl, fun _ => rfl, ⟨rfl, fun _ => rfl⟩, ⟨rfl, rfl⟩, fun _ => rfl, ⟨rfl, rfl⟩, rfl⟩
  case flips =>
    rw [pixel_of_drw hn rfl, ← State.spriteHits_iff]
    cases s.pixel px py <;> simp
  case clear =>
    rw [turnedOff_iff_of_drw hn rfl, vf_of_drw rfl, flagByte_eq_one] at hnone
    rw [vf_of_drw rfl, flagByte_eq_zero]
    exact hnone
  case regs => exact (State.reg_setReg _ vf r _).trans (if_neg (by simpa using hr))

/-- The second of two draws reads the sprite and its place as the first did, when neither is in VF. -/
theorem spriteHits_of_drw {s t : State} {x y : Reg} {n : Nat} (hx : x ≠ vf) (hy : y ≠ vf)
    (ht : t = (Instr.drw x y n).effect s) : t.spriteHits x y n = s.spriteHits x y n := by
  have hreg : ∀ r, r ≠ vf → t.reg r = s.reg r := fun r hr => by
    subst ht
    exact (State.reg_setReg _ vf r _).trans (if_neg hr)
  have hbytes : (fun r => t.byte (t.address r)) = fun r => s.byte (s.address r) := by subst ht; rfl
  unfold State.spriteHits
  rw [hreg x hx, hreg y hy, hbytes]

/-- A 1 bit of the sprite lands on some pixel. -/
theorem exists_spriteHits {s : State} {x y : Reg} {n : Nat}
    (h : ∃ r < n, ∃ c < 8, (s.byte (s.index.toNat + r)).getLsbD c = true) :
    ∃ px py, s.spriteHits x y n px py = true := by
  obtain ⟨r, hr, c, hc, hbit⟩ := h
  have hcol : 7 - (7 - c) = c := by omega
  exact ⟨Fin.ofNat 64 ((s.reg x).toNat + (7 - c)), Fin.ofNat 32 ((s.reg y).toNat + r),
    State.spriteHits_iff.2 ⟨r, hr, 7 - c, by omega, rfl, rfl, by rw [hcol]; exact hbit⟩⟩

/-- Settles O46: both draws hit the same pixels, so the second flips back what the first flipped and finds on what
the first turned on; a pixel that is hit is on before one of the two. -/
theorem drawTwiceRestoresScreen : Obligations.DrawTwiceRestoresScreen := by
  unfold Obligations.DrawTwiceRestoresScreen
  intro s x y n hx hy hn hrange
  obtain ⟨t, ht⟩ : ∃ t, t = (Instr.drw x y n).effect s := ⟨_, rfl⟩
  obtain ⟨u, hu⟩ : ∃ u, u = (Instr.drw x y n).effect t := ⟨_, rfl⟩
  have hindex : t.index = s.index := by rw [ht]; rfl
  have hhits : t.spriteHits x y n = s.spriteHits x y n := spriteHits_of_drw hx hy ht
  have hfirst := pixel_of_drw hn ht
  have hfound : u.reg vf = 1 ↔ ∃ px py, s.spriteHits x y n px py = true ∧ t.pixel px py = true := by
    rw [vf_of_drw_iff hn hu, hhits]
  refine ⟨t, u, ht ▸ exec_drw x y hrange, hu ▸ exec_drw x y (hindex ▸ hrange), fun px py => ?restored, ?second,
    fun hbit => ?collides⟩
  case restored => rw [pixel_of_drw hn hu, hhits, hfirst, Bool.xor_assoc, Bool.xor_self, Bool.xor_false]
  case second =>
    rw [hfound]
    refine exists_congr fun px => exists_congr fun py => ?_
    rw [hfirst]
    cases s.pixel px py <;> simp
  case collides =>
    obtain ⟨px, py, hhit⟩ := exists_spriteHits (x := x) (y := y) hbit
    rw [vf_of_drw_iff hn ht, hfound]
    cases hon : s.pixel px py with
    | true => exact .inl ⟨px, py, hhit, hon⟩
    | false => exact .inr ⟨px, py, hhit, by rw [hfirst, hon, hhit]; rfl⟩

end Sys2Proof.Machine
end

section
/-! The memory transfers (spec/46_timers_index_memory.md section 3, R106 to R108): each is one block of bytes or of
registers, once its last address is found in range. -/

namespace Sys2Proof.Machine

/-! ### The instructions in range -/

theorem exec_ldB {s : State} (x : Reg) (h : s.address 2 ≤ 4095) :
    exec (.ldB x) s = .next (s.advance.storeBytes (s.address 0) (bcdDigits (s.reg x))) :=
  exec_effect (i := .ldB x) ((memoryCheck_none _).2 h)

theorem exec_storeRegs {s : State} {x : Reg} (h : s.address x.val ≤ 4095) :
    exec (.storeRegs x) s = .next (s.advance.storeBytes (s.address 0) (s.regBlock x)) :=
  exec_effect (i := .storeRegs x) ((memoryCheck_none _).2 h)

theorem exec_loadRegs {s : State} {x : Reg} (h : s.address x.val ≤ 4095) :
    exec (.loadRegs x) s = .next (s.advance.loadRegBlock x (s.address 0)) :=
  exec_effect (i := .loadRegs x) ((memoryCheck_none _).2 h)

/-- The bytes the store of a register block leaves, register by register (R107). -/
theorem byte_storeRegs {s : State} {x r : Reg} (h : s.address x.val ≤ 4095) (hr : r.val ≤ x.val) :
    (s.advance.storeBytes (s.address 0) (s.regBlock x)).byte (s.address r.val) = s.reg r := by
  have hblock : s.address 0 + (s.regBlock x).length ≤ 4096 := by
    rw [State.regBlock_length]
    simp only [State.address] at h ⊢
    omega
  rw [← State.regBlock_getD s x r hr]
  exact State.byte_storeBytes_add s.advance hblock (by rw [State.regBlock_length]; omega)

/-! ### BCD -/

/-- The three digits of a byte, hundreds first, are digits and give its value (R106). -/
theorem bcdDigits_value (b : Byte) :
    ((bcdDigits b).getD 0 0).toNat * 100 + ((bcdDigits b).getD 1 0).toNat * 10 + ((bcdDigits b).getD 2 0).toNat =
      b.toNat ∧
    ((bcdDigits b).getD 0 0).toNat ≤ 2 ∧ ((bcdDigits b).getD 1 0).toNat ≤ 9 ∧
    ((bcdDigits b).getD 2 0).toNat ≤ 9 := by
  have hb := b.isLt
  simp only [bcdDigits, List.getD_cons_zero, List.getD_cons_succ, BitVec.toNat_ofNat]
  omega

/-- Settles O56: the block of three bytes from `I` up is that of the digits. -/
theorem bcdStoresThreeDigits : Obligations.BcdStoresThreeDigits := by
  unfold Obligations.BcdStoresThreeDigits
  intro s x h
  have hbyte : ∀ j < 3, (s.advance.storeBytes (s.address 0) (bcdDigits (s.reg x))).byte (s.address j) =
      (bcdDigits (s.reg x)).getD j 0 := fun j hj =>
    State.byte_storeBytes_add s.advance (a := s.address 0) (bs := bcdDigits (s.reg x)) (Nat.succ_le_succ h) hj
  obtain ⟨hvalue, hhundreds, htens, hones⟩ := bcdDigits_value (s.reg x)
  refine ⟨_, exec_ldB x h, ?_⟩
  rw [hbyte 0 (by decide), hbyte 1 (by decide), hbyte 2 (by decide)]
  exact ⟨hvalue, hhundreds, htens, hones, fun b hb => State.byte_storeBytes_outside _ _ b _ hb, rfl, fun _ _ => rfl,
    rfl, fun _ _ => rfl, ⟨rfl, fun _ => rfl⟩, ⟨rfl, rfl⟩, fun _ => rfl, ⟨rfl, rfl⟩, rfl⟩

/-! ### Register blocks -/

/-- Settles O57: the block of bytes from `I` up is that of the registers. -/
theorem storeBlockWritesV0ToVx : Obligations.StoreBlockWritesV0ToVx := by
  unfold Obligations.StoreBlockWritesV0ToVx
  intro s x h
  refine ⟨_, exec_storeRegs h, fun r hr => byte_storeRegs h hr, fun b hb => ?outside, rfl, fun _ _ => rfl, rfl,
    fun _ _ => rfl, ⟨rfl, fun _ => rfl⟩, ⟨rfl, rfl⟩, fun _ => rfl, ⟨rfl, rfl⟩, rfl⟩
  case outside =>
    rw [← State.regBlock_length s x] at hb
    exact State.byte_storeBytes_outside _ _ b _ hb

/-- Settles O58: the registers up to `V[x]` are those of the block, the others as before. -/
theorem loadBlockReadsV0ToVx : Obligations.LoadBlockReadsV0ToVx := by
  unfold Obligations.LoadBlockReadsV0ToVx
  intro s x h
  have hreg := fun r => State.reg_loadRegBlock s.advance x r (s.address 0)
  exact ⟨_, exec_loadRegs h, fun r hr => (hreg r).trans (if_pos hr),
    fun r hr => (hreg r).trans (if_neg (Nat.not_le.2 hr)), fun _ => rfl, rfl, rfl, fun _ _ => rfl,
    ⟨rfl, fun _ => rfl⟩, ⟨rfl, rfl⟩, fun _ => rfl, ⟨rfl, rfl⟩, rfl⟩

/-- Past a block that lies in memory `I` does not wrap (R107, R108). -/
theorem index_bumpIndex {s : State} {x : Reg} (h : s.address x.val ≤ 4095) :
    (s.bumpIndex true x).index.toNat = s.index.toNat + x.val + 1 := by
  rw [State.address] at h
  rw [State.bumpIndex, if_pos rfl, State.setIndex_index, BitVec.toNat_ofNat]
  omega

/-- Settles O59: the bump of `I` is the last write of each block move and the parameter decides nothing else. -/
theorem blockConventionsDifferOnlyInIndex : Obligations.BlockConventionsDifferOnlyInIndex := by
  unfold Obligations.BlockConventionsDifferOnlyInIndex
  exact fun s x h => ⟨index_bumpIndex (s := s.advance.storeBytes _ _) h, rfl,
    index_bumpIndex (s := s.advance.loadRegBlock x _) h, rfl⟩

/-- Settles O60: each of the four fails its check, with the address the check was of. -/
theorem outOfRangeAddressesRaise : Obligations.OutOfRangeAddressesRaise := by
  unfold Obligations.OutOfRangeAddressesRaise
  exact fun s x y n => ⟨fun hn h => exec_raise (i := .drw x y n) (State.spriteCheck_some.2 ⟨hn, h, rfl⟩),
    fun h => exec_raise (i := .ldB x) (memoryCheck_some.2 ⟨h, rfl⟩),
    fun h => ⟨exec_raise (i := .storeRegs x) (memoryCheck_some.2 ⟨h, rfl⟩),
      exec_raise (i := .loadRegs x) (memoryCheck_some.2 ⟨h, rfl⟩)⟩⟩

/-- Settles O22: the store puts `V[0]` and `V[1]` where the next fetch reads its word. -/
theorem storedInstructionRunsNext : Obligations.StoredInstructionRunsNext := by
  unfold Obligations.StoredInstructionRunsNext
  intro s x i hready hx hindex hrange hi
  obtain ⟨t, ht⟩ : ∃ t, t = s.advance.storeBytes (s.address 0) (s.regBlock x) := ⟨_, rfl⟩
  have hpc : t.pc.toNat = s.index.toNat := by
    have htwo : (2 : Word).toNat = 2 := rfl
    rw [ht, State.storeBytes_pc, State.advance_pc, BitVec.toNat_add, htwo, ← hindex]
    exact Nat.mod_eq_of_lt (by omega)
  have hop : t.opcode = wordOfBytes (s.reg 0) (s.reg 1) := by
    rw [State.opcode, hpc, ht]
    exact congrArg₂ wordOfBytes (byte_storeRegs (r := 0) hrange (Nat.zero_le _)) (byte_storeRegs (r := 1) hrange hx)
  have hhalt : t.halt = none := by rw [ht]; exact hready.1
  have hwait : t.wait = none := by rw [ht]; exact hready.2
  refine ⟨t, ht ▸ exec_storeRegs hrange, ?_⟩
  rw [step_ready hhalt hwait, readyTick_exec (by omega) (hop ▸ hi)]

end Sys2Proof.Machine
end
